-- ==== Sys2Proof/Word.lean ====
section
/-! DEFINITION. The widths of the machine's values: bytes, 16-bit words, and the fields of an instruction word. -/

namespace Sys2Proof

/-- An 8-bit value: a V register, a timer, a byte of memory, an immediate `nn` (rules R8, R10, R18, R21). -/
abbrev Byte := BitVec 8

/-- A 16-bit value: I, pc, a stack slot, an instruction word (rules R8, R13, R14, R16, R50). -/
abbrev Word := BitVec 16

/-- A 4-bit field that names a general register V0..VF, so an index is always in 0..15 (rules R10, R51). -/
abbrev RegIdx := BitVec 4

/-- A 4-bit field that is not a register name: the primary group, or a low nibble (rule R51). -/
abbrev Nibble := BitVec 4

/-- The 12-bit address operand `nnn` (rule R51). -/
abbrev Addr12 := BitVec 12

/-- `zext_16` (rule R9): the value widened to 16 bits with zeros on the left. -/
def zext16 {n : Nat} (b : BitVec n) : Word := b.setWidth 16

end Sys2Proof
end

