-- ==== Sys2Proof/Syntax.lean ====
section
/-! DEFINITION. The instructions: one constructor for each of the 34 rows of spec/opcode_table.json, in the table's order.
Bits the decoder ignores (rule R58) are kept as operands, so that every word has exactly one instruction (log 12). -/

namespace Sys2Proof

/-- An instruction with its operands as rule R51 extracts them. The four `undef` constructors are the table's rows for the
words that select no instruction (rule R59); they carry the word's low 12 bits. -/
inductive Instr where
  /-- `0nnE` RET (rule R80); bits 11-4 ignored. -/
  | ret (ignored : Byte)
  /-- `0nnn`, n ≠ E, SYS nnn (rule R81). -/
  | sys (nnn : Addr12)
  /-- `1nnn` JP nnn (rule R82). -/
  | jp (nnn : Addr12)
  /-- `2nnn` CALL nnn (rule R83). -/
  | call (nnn : Addr12)
  /-- `3xnn` SE Vx, nn (rule R90). -/
  | seImm (x : RegIdx) (nn : Byte)
  /-- `4xnn` SNE Vx, nn (rule R91). -/
  | sneImm (x : RegIdx) (nn : Byte)
  /-- `5xy0` SE Vx, Vy (rule R92); bits 3-0 ignored. -/
  | seReg (x y : RegIdx) (ignored : Nibble)
  /-- `6xnn` LD Vx, nn (rule R100). -/
  | ldImm (x : RegIdx) (nn : Byte)
  /-- `7xnn` ADD Vx, nn (rule R101). -/
  | addImm (x : RegIdx) (nn : Byte)
  /-- `8xy0` LD Vx, Vy (rule R111). -/
  | ldReg (x y : RegIdx)
  /-- `8xy1` OR Vx, Vy (rule R112). -/
  | orReg (x y : RegIdx)
  /-- `8xy2` AND Vx, Vy (rule R113). -/
  | andReg (x y : RegIdx)
  /-- `8xy3` XOR Vx, Vy (rule R114). -/
  | xorReg (x y : RegIdx)
  /-- `8xy4` ADD Vx, Vy (rule R115). -/
  | addReg (x y : RegIdx)
  /-- `8xy5` SUB Vx, Vy (rule R116). -/
  | subReg (x y : RegIdx)
  /-- `8xy6` SHR Vx (rule R117); the y field ignored. -/
  | shr (x : RegIdx) (ignored : Nibble)
  /-- `8xy7` SUBN Vx, Vy (rule R118). -/
  | subnReg (x y : RegIdx)
  /-- `8xyE` SHL Vx (rule R119); the y field ignored. -/
  | shl (x : RegIdx) (ignored : Nibble)
  /-- Group 8 with a low nibble of 8..D or F: SECONDARY decode failure (rules R59, R152). -/
  | undef8 (bits : Addr12)
  /-- `9xy0` SNE Vx, Vy (rule R93); bits 3-0 ignored. -/
  | sneReg (x y : RegIdx) (ignored : Nibble)
  /-- `Annn` LD I, nnn (rule R102). -/
  | ldI (nnn : Addr12)
  /-- `Bnnn` JP V0, nnn (rule R84). -/
  | jpV0 (nnn : Addr12)
  /-- `Cxnn` RND Vx, nn (rule R103). -/
  | rnd (x : RegIdx) (nn : Byte)
  /-- Group D: PRIMARY decode failure (rules R59, R152). -/
  | undefD (bits : Addr12)
  /-- Group E: PRIMARY decode failure (rules R59, R152). -/
  | undefE (bits : Addr12)
  /-- `Fx07` LD Vx, DT (rule R130). -/
  | ldVxDT (x : RegIdx)
  /-- `Fx15` LD DT, Vx (rule R131). -/
  | ldDTVx (x : RegIdx)
  /-- `Fx18` LD ST, Vx (rule R132). -/
  | ldSTVx (x : RegIdx)
  /-- `Fx1E` ADD I, Vx (rule R140). -/
  | addI (x : RegIdx)
  /-- `Fx29` LD F, Vx (rule R141). -/
  | ldF (x : RegIdx)
  /-- `Fx33` LD B, Vx (rule R142). -/
  | ldB (x : RegIdx)
  /-- `Fx55` LD [I], Vx (rule R143). -/
  | storeRegs (x : RegIdx)
  /-- `Fx65` LD Vx, [I] (rule R144). -/
  | loadRegs (x : RegIdx)
  /-- Group F with a low byte not listed in rule R57: SECONDARY decode failure (rules R59, R152). -/
  | undefF (bits : Addr12)
  deriving DecidableEq, Repr

end Sys2Proof
end

