-- ==== Sys2Proof/WellFormed.lean ====
section
/-! DEFINITION. Which terms of Instr some instruction word stands for. Widths are in the types; three constructors share their
primary group with rows that come first in priority order (spec/30_encoding.md section 7), and must keep off those rows' words. -/

namespace Sys2Proof

/-- The low nibbles of group 8 that select one of its nine instructions (rule R56). -/
def isSubOp8 (n : Nibble) : Bool :=
  [0x0#4, 0x1#4, 0x2#4, 0x3#4, 0x4#4, 0x5#4, 0x6#4, 0x7#4, 0xE#4].contains n

/-- The low bytes of group F that select one of its eight instructions (rule R57). -/
def isSubOpF (nn : Byte) : Bool :=
  [0x07#8, 0x15#8, 0x18#8, 0x1E#8, 0x29#8, 0x33#8, 0x55#8, 0x65#8].contains nn

/-- The low nibble of a 12-bit operand: bits 3-0 of its word (rule R51). -/
def lowNibble (b : Addr12) : Nibble := b.extractLsb' 0 4

/-- The low byte of a 12-bit operand: bits 7-0 of its word (rule R51). -/
def lowByte (b : Addr12) : Byte := b.extractLsb' 0 8

/-- The instruction is one a word decodes to: SYS keeps off RET's words (rule R55), UNDEF_8 and UNDEF_F off the words of
the defined sub-opcodes (rule R59). -/
def Instr.wellFormed : Instr → Bool
  | .sys nnn => lowNibble nnn != 0xE#4
  | .undef8 bits => !isSubOp8 (lowNibble bits)
  | .undefF bits => !isSubOpF (lowByte bits)
  | .ret _ => true
  | .jp _ => true
  | .call _ => true
  | .seImm _ _ => true
  | .sneImm _ _ => true
  | .seReg _ _ _ => true
  | .ldImm _ _ => true
  | .addImm _ _ => true
  | .ldReg _ _ => true
  | .orReg _ _ => true
  | .andReg _ _ => true
  | .xorReg _ _ => true
  | .addReg _ _ => true
  | .subReg _ _ => true
  | .shr _ _ => true
  | .subnReg _ _ => true
  | .shl _ _ => true
  | .sneReg _ _ _ => true
  | .ldI _ => true
  | .jpV0 _ => true
  | .rnd _ _ => true
  | .undefD _ => true
  | .undefE _ => true
  | .ldVxDT _ => true
  | .ldDTVx _ => true
  | .ldSTVx _ => true
  | .addI _ => true
  | .ldF _ => true
  | .ldB _ => true
  | .storeRegs _ => true
  | .loadRegs _ => true

end Sys2Proof
end

