-- ==== Sys2Proof/Decode.lean ====
section
/-! DEFINITION. The decoder, from instruction words and from bytes, and the encoder, both written from the tables of
spec/30_encoding.md. -/

namespace Sys2Proof

/-- `op`: the primary group, bits 15-12 (rule R51). -/
def opField (w : Word) : Nibble := w.extractLsb' 12 4

/-- `x`: bits 11-8 (rule R51). -/
def xField (w : Word) : RegIdx := w.extractLsb' 8 4

/-- `y`: bits 7-4 (rule R51). -/
def yField (w : Word) : RegIdx := w.extractLsb' 4 4

/-- `n`: bits 3-0 (rule R51). -/
def nField (w : Word) : Nibble := w.extractLsb' 0 4

/-- `nn`: bits 7-0 (rule R51). -/
def nnField (w : Word) : Byte := w.extractLsb' 0 8

/-- `nnn`: bits 11-0 (rule R51). -/
def nnnField (w : Word) : Addr12 := w.extractLsb' 0 12

/-- Bits 11-4, which RET ignores (rule R58). -/
def midField (w : Word) : Byte := w.extractLsb' 4 8

/-- Group 0: RET for every word with low nibble E, SYS for the others (rule R55). -/
def decodeGroup0 (w : Word) : Instr :=
  match nField w with
  | 0xE#4 => .ret (midField w)
  | _ => .sys (nnnField w)

/-- Group 8: the secondary dispatch on the low nibble (rule R56). -/
def decodeGroup8 (w : Word) : Instr :=
  match nField w with
  | 0x0#4 => .ldReg (xField w) (yField w)
  | 0x1#4 => .orReg (xField w) (yField w)
  | 0x2#4 => .andReg (xField w) (yField w)
  | 0x3#4 => .xorReg (xField w) (yField w)
  | 0x4#4 => .addReg (xField w) (yField w)
  | 0x5#4 => .subReg (xField w) (yField w)
  | 0x6#4 => .shr (xField w) (yField w)
  | 0x7#4 => .subnReg (xField w) (yField w)
  | 0xE#4 => .shl (xField w) (yField w)
  | _ => .undef8 (nnnField w)

/-- Group F: the secondary dispatch on the low byte, all 8 bits compared (rule R57). -/
def decodeGroupF (w : Word) : Instr :=
  match nnField w with
  | 0x07#8 => .ldVxDT (xField w)
  | 0x15#8 => .ldDTVx (xField w)
  | 0x18#8 => .ldSTVx (xField w)
  | 0x1E#8 => .addI (xField w)
  | 0x29#8 => .ldF (xField w)
  | 0x33#8 => .ldB (xField w)
  | 0x55#8 => .storeRegs (xField w)
  | 0x65#8 => .loadRegs (xField w)
  | _ => .undefF (nnnField w)

/-- The primary dispatch (rule R54): a pure function of the 16-bit word (rule R73), total, because the words without an
instruction are instructions of the table's four UNDEF rows (rule R59, log 14). -/
def decodeWord (w : Word) : Instr :=
  match opField w with
  | 0x0#4 => decodeGroup0 w
  | 0x1#4 => .jp (nnnField w)
  | 0x2#4 => .call (nnnField w)
  | 0x3#4 => .seImm (xField w) (nnField w)
  | 0x4#4 => .sneImm (xField w) (nnField w)
  | 0x5#4 => .seReg (xField w) (yField w) (nField w)
  | 0x6#4 => .ldImm (xField w) (nnField w)
  | 0x7#4 => .addImm (xField w) (nnField w)
  | 0x8#4 => decodeGroup8 w
  | 0x9#4 => .sneReg (xField w) (yField w) (nField w)
  | 0xA#4 => .ldI (nnnField w)
  | 0xB#4 => .jpV0 (nnnField w)
  | 0xC#4 => .rnd (xField w) (nnField w)
  | 0xD#4 => .undefD (nnnField w)
  | 0xE#4 => .undefE (nnnField w)
  | _ => decodeGroupF w

/-- The word whose high byte stands at the lower address: `hi ++ lo` (rules R33, R71). -/
def wordOfBytes (hi lo : Byte) : Word := BitVec.ofNat 16 (hi.toNat * 256 + lo.toNat)

/-- The byte of a word that stands at the lower address (rule R33). -/
def highByte (w : Word) : Byte := w.extractLsb' 8 8

/-- The byte of a word that stands at the higher address (rule R33). -/
def lowByteOfWord (w : Word) : Byte := w.extractLsb' 0 8

/-- Why a list of bytes holds no instruction: it is shorter than the two bytes every instruction takes (rule R50). -/
inductive DecodeError where
  | truncated
  deriving DecidableEq, Repr

/-- The instruction at the head of a list of bytes, and the bytes after it; every instruction takes two (rules R33, R50). -/
def decodeBytes : List Byte → Except DecodeError (Instr × List Byte)
  | hi :: lo :: rest => .ok (decodeWord (wordOfBytes hi lo), rest)
  | [_] => .error .truncated
  | [] => .error .truncated

/-- Layout NNN (rule R52): op in bits 15-12, nnn in bits 11-0. -/
def layoutNNN (op : Nibble) (nnn : Addr12) : Word := BitVec.ofNat 16 (op.toNat * 4096 + nnn.toNat)

/-- Layouts XNN and XKK (rule R52): op in bits 15-12, x in bits 11-8, nn (or kk) in bits 7-0. -/
def layoutXNN (op : Nibble) (x : RegIdx) (nn : Byte) : Word :=
  BitVec.ofNat 16 (op.toNat * 4096 + x.toNat * 256 + nn.toNat)

/-- Layout XYN (rule R52): op in bits 15-12, x in bits 11-8, y in bits 7-4, n in bits 3-0. -/
def layoutXYN (op : Nibble) (x y : RegIdx) (n : Nibble) : Word :=
  BitVec.ofNat 16 (op.toNat * 4096 + x.toNat * 256 + y.toNat * 16 + n.toNat)

/-- Layout of RET (rules R52, R55): group 0, eight ignored bits in 11-4, low nibble E. -/
def layoutRet (ignored : Byte) : Word := BitVec.ofNat 16 (ignored.toNat * 16 + 0xE)

/-- The word of an instruction, from the encoding column of spec/opcode_table.json. -/
def encode : Instr → Word
  | .ret ignored => layoutRet ignored
  | .sys nnn => layoutNNN 0x0#4 nnn
  | .jp nnn => layoutNNN 0x1#4 nnn
  | .call nnn => layoutNNN 0x2#4 nnn
  | .seImm x nn => layoutXNN 0x3#4 x nn
  | .sneImm x nn => layoutXNN 0x4#4 x nn
  | .seReg x y ignored => layoutXYN 0x5#4 x y ignored
  | .ldImm x nn => layoutXNN 0x6#4 x nn
  | .addImm x nn => layoutXNN 0x7#4 x nn
  | .ldReg x y => layoutXYN 0x8#4 x y 0x0#4
  | .orReg x y => layoutXYN 0x8#4 x y 0x1#4
  | .andReg x y => layoutXYN 0x8#4 x y 0x2#4
  | .xorReg x y => layoutXYN 0x8#4 x y 0x3#4
  | .addReg x y => layoutXYN 0x8#4 x y 0x4#4
  | .subReg x y => layoutXYN 0x8#4 x y 0x5#4
  | .shr x ignored => layoutXYN 0x8#4 x ignored 0x6#4
  | .subnReg x y => layoutXYN 0x8#4 x y 0x7#4
  | .shl x ignored => layoutXYN 0x8#4 x ignored 0xE#4
  | .undef8 bits => layoutNNN 0x8#4 bits
  | .sneReg x y ignored => layoutXYN 0x9#4 x y ignored
  | .ldI nnn => layoutNNN 0xA#4 nnn
  | .jpV0 nnn => layoutNNN 0xB#4 nnn
  | .rnd x nn => layoutXNN 0xC#4 x nn
  | .undefD bits => layoutNNN 0xD#4 bits
  | .undefE bits => layoutNNN 0xE#4 bits
  | .ldVxDT x => layoutXNN 0xF#4 x 0x07#8
  | .ldDTVx x => layoutXNN 0xF#4 x 0x15#8
  | .ldSTVx x => layoutXNN 0xF#4 x 0x18#8
  | .addI x => layoutXNN 0xF#4 x 0x1E#8
  | .ldF x => layoutXNN 0xF#4 x 0x29#8
  | .ldB x => layoutXNN 0xF#4 x 0x33#8
  | .storeRegs x => layoutXNN 0xF#4 x 0x55#8
  | .loadRegs x => layoutXNN 0xF#4 x 0x65#8
  | .undefF bits => layoutNNN 0xF#4 bits

/-- The two bytes of an instruction as memory holds them, the high byte first (rules R33, R50). -/
def encodeBytes (i : Instr) : List Byte := [highByte (encode i), lowByteOfWord (encode i)]

/-- The instruction the decoder reads from the first `nbits` bits of `w`, bits above them zero: the word's two bytes laid
out as memory holds them and decoded. -/
def decodeTableWord (nbits w : Nat) : Option Instr :=
  let word : Word := BitVec.ofNat 16 (w % 2 ^ nbits)
  match decodeBytes [highByte word, lowByteOfWord word] with
  | .ok (i, _) => some i
  | .error _ => none

end Sys2Proof
end

