-- ==== Sys2Proof/Config.lean ====
section
/-! DEFINITION. What an implementation fixes (rule R8), and the one free value the spec leaves to the environment (rule R5). -/

namespace Sys2Proof.Config

/-- `MEM_SIZE`: the memory's capacity in bytes (rules R8, R21, R30). -/
def memSize : Nat := 4096

/-- `STACK_DEPTH`: how many return addresses the stack holds (rules R8, R16). -/
abbrev stackDepth : Nat := 16

/-- The `PROGRAM_START` of `State.reset`, the one core the host runs. The spec leaves the parameter OPEN (rule R8, decision
D4) and suggests 0x200; the machine takes it from its state's `programStart`, and this number enters by `State.reset` alone.
DESIGN CHOICE (log 1), unsafe: a claim that leans on this number is about a core configured so. -/
def programStart : Word := 0x200#16

/-- The k-th answer of `random_byte()` (rule R5, decision D15): a free 8-bit draw with no law, so no body.
DESIGN CHOICE (log 8), safe: a claim proved about it holds whatever the environment answers. -/
opaque randomByte : Nat → Byte

end Sys2Proof.Config
end

