-- ==== Sys2Proof/Machine/State.lean ====
section
/-! DEFINITION. The machine's state as plain data, the reasons a step can stop, and the state after reset. -/

namespace Sys2Proof.Machine

/-- Memory (rules R21, R30): the bytes that are not 0x00, by rising address. An address not listed reads as 0x00, the value
every byte has after reset (rule R23). The canonical form is `Memory.wf` of Ops.lean (log 23). -/
abbrev Memory := List Host.Cell

/-- The cause of a fatal fault (rule R151, codes 1 to 6; the code 0, NONE, is the absence of a cause). -/
inductive Cause where
  /-- The fetch address or the one after it lies outside memory. -/
  | fetchAddr
  /-- `Fx65` would read outside memory. -/
  | dataAddrRead
  /-- `Fx33` or `Fx55` would write outside memory. -/
  | dataAddrWrite
  /-- `2nnn` with all 16 stack slots in use. -/
  | stackOverflow
  /-- `0nnE` with no stack slot in use. -/
  | stackUnderflow
  /-- `Load` past the end of memory. -/
  | loadResource
  deriving DecidableEq, Repr

/-- The class a decode failure reports (rules R59, R151). -/
inductive FailClass where
  /-- The top nibble has no handler (groups D and E). -/
  | primary
  /-- Group 8 or F, and the sub-opcode has no handler. -/
  | secondary
  deriving DecidableEq, Repr

/-- What an operation reports to the environment (rules R6, R74). -/
inductive Report where
  /-- A `Step` executed the instruction of word `w`. -/
  | ok (w : Word)
  /-- A `Step` fetched a word that selects no instruction. -/
  | decodeFail (w : Word) (cls : FailClass)
  /-- A `Step` or a `Load` met a fatal fault, or found one latched. -/
  | fault (c : Cause)
  /-- A `Load` copied its bytes. -/
  | loaded
  deriving DecidableEq, Repr

/-- An operation the environment presents (rules R2, R184); the last one is a `Tick` and a `Step` at the same instant
(rule R4). -/
inductive Request where
  | reset
  | load (bytes : List Byte) (offset : Nat)
  | tick
  | step (rnd : Byte)
  | tickAndStep (rnd : Byte)
  deriving DecidableEq, Repr

/-- The whole state (spec/10_state.md section 1), the one open parameter of the hardware, and below it the model's own fields:
the input and the output of the operation, and what the environment does next. -/
structure State where
  /-- V0..VF (rule R10); V[15] is VF, the flag (rule R11). -/
  v : Vector Byte 16
  /-- The index register I (rule R13). -/
  i : Word
  /-- The program counter (rule R14). -/
  pc : Word
  /-- The return-address stack (rule R16), a register file of its own. -/
  stack : Vector Word Config.stackDepth
  /-- SP: the number of stack slots in use, 0 to 16 (rule R17, log 4). -/
  sp : Fin (Config.stackDepth + 1)
  /-- The delay timer (rule R18). -/
  dt : Byte
  /-- The sound timer (rule R18). -/
  st : Byte
  /-- The 4096 bytes of memory (rule R21). -/
  mem : Memory
  /-- The FAULT latch (rule R20): no cause when FAULT = 0, the latched cause when FAULT = 1 (log 5). -/
  fault : Option Cause
  /-- PARAMETER: the core's PROGRAM_START (rule R8), which `Reset` reads and no operation writes (log 1). -/
  programStart : Word
  /-- MODEL'S OWN: what the operation just performed reported; nothing for `Reset` and `Tick` (rule R6, log 7). -/
  outcome : Option Report
  /-- MODEL'S OWN: the input `rnd` of the `Step` in progress (rule R5, log 8). -/
  rnd : Byte
  /-- MODEL'S OWN: how many free random bytes have been drawn (rule R5, log 8). -/
  draws : Nat
  /-- MODEL'S OWN: the operations the environment presents next, oldest first (rules R2, R3, log 9). -/
  schedule : List Request
  deriving DecidableEq, Repr

/-- Why the machine could stop with a fault. There is no such reason: the spec describes the state after every fatal fault
(rules R153 to R156), so a fatal fault is a next state with FAULT latched, and nothing raises a member of this type (log 5).
Safe: no outcome is lost. -/
inductive Fault
  deriving DecidableEq, Repr

/-- Why the model could refuse an instruction. -/
inductive Refusal where
  /-- Raised by an arm of `exec` whose instruction has no meaning yet; no arm raises it now. Safe: it claims nothing. -/
  | notModelled (mnemonic : String)
  deriving DecidableEq, Repr

/-- The state after `Reset` in a core configured with the given PROGRAM_START (rules R23, R180). The stack slots are the
model's choice, zero (log 3; rule R24 leaves them open). -/
def State.resetAt (programStart : Word) : State where
  v := Vector.replicate 16 0x00#8
  i := 0x0000#16
  pc := programStart
  stack := Vector.replicate Config.stackDepth 0x0000#16
  sp := 0
  dt := 0x00#8
  st := 0x00#8
  mem := []
  fault := none
  programStart := programStart
  outcome := none
  rnd := 0x00#8
  draws := 0
  schedule := []

/-- The machine right after reset, configured with `Config.programStart` as its PROGRAM_START (log 1). -/
def State.reset : State := State.resetAt Config.programStart

end Sys2Proof.Machine
end

