-- ==== Sys2Proof/Machine/Ops.lean ====
section
/-! DEFINITION. The named operations over registers, stack and memory, the taking of a fatal fault, and the operations
`Reset`, `Load` and `Tick`. -/

namespace Sys2Proof.Machine

/-- What executing an instruction answers. -/
abbrev Result := Host.Outcome State Fault Refusal

/-! ### One home for every field -/

/-- `V[x]` (rule R10). -/
def State.readV (s : State) (x : RegIdx) : Byte := s.v[x.toNat]

/-- `V[x] <- b` (rules R10, R12). -/
def State.writeV (s : State) (x : RegIdx) (b : Byte) : State := { s with v := s.v.set x.toNat b }

/-- `I <- w` (rule R13). -/
def State.setI (s : State) (w : Word) : State := { s with i := w }

/-- `pc <- w` (rule R14). -/
def State.setPc (s : State) (w : Word) : State := { s with pc := w }

/-- `STACK[k] <- w` (rule R16). -/
def State.setSlot (s : State) (k : Fin Config.stackDepth) (w : Word) : State := { s with stack := s.stack.set k w }

/-- `SP <- n` (rule R17). -/
def State.setSp (s : State) (n : Fin (Config.stackDepth + 1)) : State := { s with sp := n }

/-- `DT <- b` (rule R18). -/
def State.setDt (s : State) (b : Byte) : State := { s with dt := b }

/-- `ST <- b` (rule R18). -/
def State.setSt (s : State) (b : Byte) : State := { s with st := b }

/-- The memory replaced whole. -/
def State.setMem (s : State) (m : Memory) : State := { s with mem := m }

/-- `FAULT <- 1; FAULT.cause <- c` (rule R20). -/
def State.latch (s : State) (c : Cause) : State := { s with fault := some c }

/-- `report r` (rule R9): what the operation tells the environment. -/
def State.report (s : State) (r : Report) : State := { s with outcome := some r }

/-- The operation has reported nothing (rule R6). -/
def State.noReport (s : State) : State := { s with outcome := none }

/-- The input `rnd` of the step in progress (rule R5). -/
def State.setRnd (s : State) (b : Byte) : State := { s with rnd := b }

/-- One more free random byte is drawn (rule R5, log 8). -/
def State.countDraw (s : State) : State := { s with draws := s.draws + 1 }

/-- What the environment presents after this operation (log 9). -/
def State.setSchedule (s : State) (q : List Request) : State := { s with schedule := q }

/-! ### The FAULT latch as the bits the spec gives it -/

/-- The numeric code of a cause (rule R151). -/
def Cause.code : Cause → BitVec 4
  | .fetchAddr => 1#4
  | .dataAddrRead => 2#4
  | .dataAddrWrite => 3#4
  | .stackOverflow => 4#4
  | .stackUnderflow => 5#4
  | .loadResource => 6#4

/-- The FAULT bit (rule R20). -/
def State.faultBit (s : State) : BitVec 1 :=
  match s.fault with
  | none => 0#1
  | some _ => 1#1

/-- The 4-bit cause field, 0 (NONE) when no fault is latched (rules R20, R151). -/
def State.faultCause (s : State) : BitVec 4 :=
  match s.fault with
  | none => 0#4
  | some c => c.code

/-! ### Memory -/

/-- The byte an address holds; an address not listed holds 0x00 (rules R21, R41). -/
def Memory.readByte : Memory → Nat → Byte
  | [], _ => 0x00#8
  | c :: rest, a => if c.1 = a then c.2 else Memory.readByte rest a

/-- The cells at every address but `a`. -/
def Memory.erase (m : Memory) (a : Nat) : Memory := m.filter (fun c => c.1 != a)

/-- The cell put before the first cell of a higher address. -/
def Memory.insertCell (a : Nat) (b : Byte) : Memory → Memory
  | [] => [(a, b)]
  | c :: rest => if a < c.1 then (a, b) :: c :: rest else c :: Memory.insertCell a b rest

/-- The memory with address `a` holding `b`; 0x00 is held by listing nothing (log 23). -/
def Memory.writeByte (m : Memory) (a : Nat) (b : Byte) : Memory :=
  if b = 0x00#8 then Memory.erase m a else Memory.insertCell a b (Memory.erase m a)

/-- The memory with the bytes at `a`, `a + 1`, …, one at a time, ascending (rules R34, R39). -/
def Memory.writeBytes (m : Memory) (a : Nat) : List Byte → Memory
  | [] => m
  | b :: bs => Memory.writeBytes (Memory.writeByte m a b) (a + 1) bs

/-- The `n` bytes at `a`, `a + 1`, …, ascending (rule R34). -/
def Memory.readBytes (m : Memory) (a : Nat) : Nat → List Byte
  | 0 => []
  | n + 1 => Memory.readByte m a :: Memory.readBytes m (a + 1) n

/-- The canonical form: addresses strictly rising, none past the end of memory, and no listed byte 0x00. -/
abbrev Memory.wf (m : Memory) : Prop :=
  List.Pairwise (fun c d => c.1 < d.1) m ∧ ∀ c ∈ m, c.1 < Config.memSize ∧ c.2 ≠ 0x00#8

/-- `MemRead(a, 1)` (rule R31): the byte at a valid address; nothing for an AddressFault. -/
def State.memRead (s : State) (a : Nat) : Option Byte :=
  if a < Config.memSize then some (Memory.readByte s.mem a) else none

/-- `MemWrite(a, 1, b)` (rule R32): one byte changed at a valid address; nothing for an AddressFault. -/
def State.memWrite (s : State) (a : Nat) (b : Byte) : Option State :=
  if a < Config.memSize then some (s.setMem (Memory.writeByte s.mem a b)) else none

/-- All of the `n` addresses from `a` on are valid. Addresses are mathematical sums, never wrapped (rule R38); no bytes at
all fit anywhere up to the end of memory (rule R39). -/
def rangeFits (a n : Nat) : Bool := decide (a + n ≤ Config.memSize)

/-- The `n` bytes from `a` on, or nothing when one of them lies outside memory: the whole range is checked before any byte
moves (rule R44). -/
def State.memReadRange (s : State) (a n : Nat) : Option (List Byte) :=
  if rangeFits a n then some (Memory.readBytes s.mem a n) else none

/-- The bytes stored from `a` on, or nothing when one of them would lie outside memory (rules R39, R44). -/
def State.memWriteRange (s : State) (a : Nat) (bs : List Byte) : Option State :=
  if rangeFits a bs.length then some (s.setMem (Memory.writeBytes s.mem a bs)) else none

/-! ### Taking a fatal fault

`raiseFault` is the machine's only exception entry (rules R153 to R155, R160): no register saves anything, no mode changes,
and pc goes to no handler. There is no return from it (rule R161): the way on is `Reset`, which is `resetOp` below. -/

/-- `raise`: FAULT latched with the cause, the fault reported, nothing else written (rules R153, R154, R155). -/
def State.raiseFault (s : State) (c : Cause) : State := (s.latch c).report (.fault c)

/-- A decode failure: the word and its class reported, nothing else written (rules R76, R152). -/
def State.decodeFailure (s : State) (w : Word) (cls : FailClass) : State := s.report (.decodeFail w cls)

/-! ### The return-address stack -/

/-- A push: the slot of index SP written, then SP raised; nothing when all slots are in use (rules R17, R83). -/
def State.push (s : State) (w : Word) : Option State :=
  if h : s.sp.val < Config.stackDepth then
    some ((s.setSlot ⟨s.sp.val, h⟩ w).setSp ⟨s.sp.val + 1, Nat.succ_lt_succ h⟩)
  else none

/-- The most recently pushed word, and the state with SP lowered; nothing when no slot is in use. The slot keeps its value
(rules R17, R24, R80). -/
def State.pop (s : State) : Option (Word × State) :=
  match s.sp with
  | ⟨0, _⟩ => none
  | ⟨n + 1, h⟩ => some (s.stack[n]'(Nat.lt_of_succ_lt_succ h), s.setSp ⟨n, Nat.lt_of_succ_lt h⟩)

/-! ### The fetch -/

/-- The word at pc, high byte first, or nothing when pc or pc + 1 lies outside memory (rules R33, R71). -/
def State.fetchWord (s : State) : Option Word :=
  match s.memRead s.pc.toNat, s.memRead (s.pc.toNat + 1) with
  | some hi, some lo => some (wordOfBytes hi lo)
  | _, _ => none

/-- `pc <- pc + 2` (rules R71, R90 to R93). Beyond 0xFFFF, which no run reaches (rule R15), it wraps (log 11). -/
def State.advancePc (s : State) : State := s.setPc (s.pc + 2#16)

/-! ### The operations other than Step -/

/-- A timer after one tick: floor-clamped at zero (rule R163). -/
def countDown (b : Byte) : Byte := if b = 0x00#8 then 0x00#8 else b - 1#8

/-- `Tick()`: each timer counted down on its own, nothing reported (rules R163, R166). -/
def State.tickOp (s : State) : State := ((s.setDt (countDown s.dt)).setSt (countDown s.st)).noReport

/-- `Load(bytes, offset)`: the latched fault reported again; or LOAD_RESOURCE raised and nothing written; or the bytes
copied (rules R39, R155, R156). -/
def State.loadOp (s : State) (bytes : List Byte) (offset : Nat) : State :=
  match s.fault with
  | some c => s.report (.fault c)
  | none =>
    match s.memWriteRange offset bytes with
    | none => s.raiseFault .loadResource
    | some t => t.report .loaded

/-- `Reset()`: every piece of the core's state at its reset value, pc at the core's own PROGRAM_START (rules R8, R180); what
the environment does next, and the count of its draws, are not the core's and stay (log 18). -/
def State.resetOp (s : State) : State :=
  { State.resetAt s.programStart with draws := s.draws, schedule := s.schedule }

end Sys2Proof.Machine
end

