-- ==== Sys2Proof/Machine/Operands.lean ====
section
/-! DEFINITION. The operand forms (rule R53 and the one addressing mode of spec/46_index_memory.md): VF and V0 by name,
zero-extended immediates, the register range V0..Vx, and the implicit memory range at I. -/

namespace Sys2Proof.Machine

/-- The flag register VF is V[15] (rule R11). -/
def vF : RegIdx := 0xF#4

/-- V0, the implicit offset operand of `Bnnn` (rule R53). -/
def v0 : RegIdx := 0x0#4

/-- The effective address `I` from which a memory instruction's bytes ascend, a mathematical integer (rule R38). -/
def State.indexAddr (s : State) : Nat := s.i.toNat

/-- How many registers V0..Vx is: x + 1, inclusive of Vx (rules R53, R143, R144). -/
def regCount (x : RegIdx) : Nat := x.toNat + 1

/-- The contents of `n` registers from number `k` on, ascending. -/
def State.readRegs (s : State) (k : Nat) : Nat → List Byte
  | 0 => []
  | n + 1 => s.readV (BitVec.ofNat 4 k) :: s.readRegs (k + 1) n

/-- The bytes written to the registers from number `k` on, ascending. -/
def State.writeRegs (s : State) (k : Nat) : List Byte → State
  | [] => s
  | b :: bs => (s.writeV (BitVec.ofNat 4 k) b).writeRegs (k + 1) bs

/-- The three decimal digits of a byte: hundreds, tens, ones, one byte each (rule R142). -/
def bcdDigits (b : Byte) : List Byte :=
  [BitVec.ofNat 8 (b.toNat / 100), BitVec.ofNat 8 (b.toNat / 10 % 10), BitVec.ofNat 8 (b.toNat % 10)]

/-- `pc <- pc + 2` when the condition holds (spec/42_skips.md). -/
def State.skipIf (s : State) (c : Bool) : State := if c then s.advancePc else s

end Sys2Proof.Machine
end

