-- ==== Sys2Proof/Machine/Flags.lean ====
section
/-! DEFINITION. The arithmetic results with the flag each gives, and the three-phase discipline of the six instructions that
write VF (rule R110). Results are computed on mathematical integers and then reduced (rules R9, R120). -/

namespace Sys2Proof.Machine

/-- The sum mod 256, and whether it passed 255 (rule R115). -/
def addCarry (a b : Byte) : Byte × Bool :=
  let sum := a.toNat + b.toNat
  (BitVec.ofNat 8 sum, decide (255 < sum))

/-- `(a - b) mod 256`, and whether a borrow occurred (rules R116, R118). -/
def subBorrow (a b : Byte) : Byte × Bool :=
  (BitVec.ofInt 8 ((a.toNat : Int) - (b.toNat : Int)), decide (a.toNat < b.toNat))

/-- The logical shift right by one, and the bit shifted out, bit 0 (rule R117). -/
def shiftRightOut (a : Byte) : Byte × Bool := (a >>> 1, a.getLsbD 0)

/-- The shift left by one, and the bit shifted out, bit 7 (rule R119). -/
def shiftLeftOut (a : Byte) : Byte × Bool := (a <<< 1, a.getLsbD 7)

/-- `(I + a) mod 65536`, and the carry out of bit 15 (rule R140). -/
def addIndex (i : Word) (a : Byte) : Word × Bool :=
  let sum := i.toNat + a.toNat
  (BitVec.ofNat 16 sum, decide (65535 < sum))

/-- `c ? 1 : 0` as the byte VF receives (rules R9, R110). -/
def flagByte (c : Bool) : Byte := if c then 0x01#8 else 0x00#8

/-- Phase 1 of rule R110: VF cleared, before the operands are read. -/
def State.clearFlag (s : State) : State := s.writeV vF 0x00#8

/-- `V[15] <- flag` (rule R110). -/
def State.setFlag (s : State) (c : Bool) : State := s.writeV vF (flagByte c)

/-- The order of 8xy4, 8xy5 and 8xy7 (rule R110, decision D9, log 13): VF cleared, the operands read, the result written to
Vx, then the flag to VF. -/
def State.resultThenFlag (s : State) (x y : RegIdx) (f : Byte → Byte → Byte × Bool) : State :=
  let t := s.clearFlag
  let r := f (t.readV x) (t.readV y)
  (t.writeV x r.1).setFlag r.2

/-- The order of 8xy6 and 8xyE (rule R110, decision D9, log 13): VF cleared, the operand read, the flag written to VF, then
the result to Vx. -/
def State.flagThenResult (s : State) (x : RegIdx) (f : Byte → Byte × Bool) : State :=
  let t := s.clearFlag
  let r := f (t.readV x)
  (t.setFlag r.2).writeV x r.1

/-- The order of Fx1E (rules R110, R140): VF cleared, Vx read, I written, then the flag to VF. -/
def State.indexThenFlag (s : State) (x : RegIdx) : State :=
  let t := s.clearFlag
  let r := addIndex t.i (t.readV x)
  (t.setI r.1).setFlag r.2

end Sys2Proof.Machine
end

