-- ==== Sys2Proof/Machine/Alu.lean ====
section
/-! DEFINITION. The register-to-register instructions of group 8 (spec/44_alu_group8.md). -/

namespace Sys2Proof.Machine

/-- `8xy0` LD Vx, Vy (rule R111). -/
def execLdReg (x y : RegIdx) (s : State) : Result := .next (s.writeV x (s.readV y))

/-- `8xy1` OR (rule R112); VF is not written as a flag. -/
def execOrReg (x y : RegIdx) (s : State) : Result := .next (s.writeV x (s.readV x ||| s.readV y))

/-- `8xy2` AND (rule R113); VF is not written as a flag. -/
def execAndReg (x y : RegIdx) (s : State) : Result := .next (s.writeV x (s.readV x &&& s.readV y))

/-- `8xy3` XOR (rule R114); VF is not written as a flag. -/
def execXorReg (x y : RegIdx) (s : State) : Result := .next (s.writeV x (s.readV x ^^^ s.readV y))

/-- `8xy4` ADD (rule R115): VF is the carry. -/
def execAddReg (x y : RegIdx) (s : State) : Result := .next (s.resultThenFlag x y addCarry)

/-- `8xy5` SUB (rule R116): VF is 1 on borrow. -/
def execSubReg (x y : RegIdx) (s : State) : Result := .next (s.resultThenFlag x y subBorrow)

/-- `8xy6` SHR (rule R117): Vx is shifted in place; the y field is ignored (rule R58). -/
def execShr (x : RegIdx) (_ignored : Nibble) (s : State) : Result := .next (s.flagThenResult x shiftRightOut)

/-- `8xy7` SUBN (rule R118): Vy minus Vx; VF is 1 on borrow. -/
def execSubnReg (x y : RegIdx) (s : State) : Result := .next (s.resultThenFlag x y (fun a b => subBorrow b a))

/-- `8xyE` SHL (rule R119): Vx is shifted in place; the y field is ignored (rule R58). -/
def execShl (x : RegIdx) (_ignored : Nibble) (s : State) : Result := .next (s.flagThenResult x shiftLeftOut)

end Sys2Proof.Machine
end

