-- ==== Sys2Proof/Machine/Control.lean ====
section
/-! DEFINITION. The control-flow instructions (spec/41_control_flow.md). Every meaning of this folder starts from the state the
fetch leaves, with pc already advanced by 2 (rule R72). -/

namespace Sys2Proof.Machine

/-- `0nnE` RET (rule R80): pc takes the most recently pushed address, or STACK_UNDERFLOW. Bits 11-4 are ignored. -/
def execRet (_ignored : Byte) (s : State) : Result :=
  match s.pop with
  | none => .next (s.raiseFault .stackUnderflow)
  | some (target, t) => .next (t.setPc target)

/-- `0nnn` SYS (rule R81): no operation, whatever nnn is; 0x0000 and 0x00E0 are no different. -/
def execSys (_nnn : Addr12) (s : State) : Result := .next s

/-- `1nnn` JP (rule R82). -/
def execJp (nnn : Addr12) (s : State) : Result := .next (s.setPc (zext16 nnn))

/-- `2nnn` CALL (rule R83): the advanced pc pushed, or STACK_OVERFLOW. -/
def execCall (nnn : Addr12) (s : State) : Result :=
  match s.push s.pc with
  | none => .next (s.raiseFault .stackOverflow)
  | some t => .next (t.setPc (zext16 nnn))

/-- `Bnnn` JP V0 (rule R84): the sum is not reduced to 12 bits. -/
def execJpV0 (nnn : Addr12) (s : State) : Result := .next (s.setPc (zext16 nnn + zext16 (s.readV v0)))

end Sys2Proof.Machine
end

