-- ==== Sys2Proof/Machine/Immediate.lean ====
section
/-! DEFINITION. Immediate loads and add, the index load, and the random byte (spec/43_immediate_random.md). -/

namespace Sys2Proof.Machine

/-- `6xnn` LD Vx, nn (rule R100). -/
def execLdImm (x : RegIdx) (nn : Byte) (s : State) : Result := .next (s.writeV x nn)

/-- `7xnn` ADD Vx, nn (rule R101): the sum mod 256; VF is not written as a flag. -/
def execAddImm (x : RegIdx) (nn : Byte) (s : State) : Result := .next (s.writeV x (addCarry (s.readV x) nn).1)

/-- `Annn` LD I, nnn (rule R102). -/
def execLdI (nnn : Addr12) (s : State) : Result := .next (s.setI (zext16 nnn))

/-- `Cxnn` RND Vx, nn (rule R103): the step's input `rnd`, masked. -/
def execRnd (x : RegIdx) (nn : Byte) (s : State) : Result := .next (s.writeV x (s.rnd &&& nn))

end Sys2Proof.Machine
end

