-- ==== Sys2Proof/Machine/IndexMemory.lean ====
section
/-! DEFINITION. The index-register and memory instructions (spec/46_index_memory.md). None of the memory instructions changes
I, and each checks its whole range first (rule R44). -/

namespace Sys2Proof.Machine

/-- `Fx1E` ADD I, Vx (rule R140): VF is the carry out of bit 15. -/
def execAddI (x : RegIdx) (s : State) : Result := .next (s.indexThenFlag x)

/-- `Fx29` LD F, Vx (rule R141): five times the whole byte, into I (log 16); at most 1275, so nothing is lost. -/
def execLdF (x : RegIdx) (s : State) : Result := .next (s.setI (BitVec.ofNat 16 ((s.readV x).toNat * 5)))

/-- `Fx33` LD B, Vx (rule R142): the three decimal digits stored at I, or DATA_ADDR_WRITE. -/
def execLdB (x : RegIdx) (s : State) : Result :=
  match s.memWriteRange s.indexAddr (bcdDigits (s.readV x)) with
  | none => .next (s.raiseFault .dataAddrWrite)
  | some t => .next t

/-- `Fx55` LD [I], Vx (rule R143): V0..Vx stored at I, or DATA_ADDR_WRITE. -/
def execStoreRegs (x : RegIdx) (s : State) : Result :=
  match s.memWriteRange s.indexAddr (s.readRegs 0 (regCount x)) with
  | none => .next (s.raiseFault .dataAddrWrite)
  | some t => .next t

/-- `Fx65` LD Vx, [I] (rule R144): V0..Vx loaded from I, or DATA_ADDR_READ. -/
def execLoadRegs (x : RegIdx) (s : State) : Result :=
  match s.memReadRange s.indexAddr (regCount x) with
  | none => .next (s.raiseFault .dataAddrRead)
  | some bytes => .next (s.writeRegs 0 bytes)

end Sys2Proof.Machine
end

