-- ==== Sys2Proof/Machine/Skip.lean ====
section
/-! DEFINITION. The conditional skips (spec/42_skips.md). -/

namespace Sys2Proof.Machine

/-- `3xnn` SE Vx, nn (rule R90). -/
def execSeImm (x : RegIdx) (nn : Byte) (s : State) : Result := .next (s.skipIf (s.readV x == nn))

/-- `4xnn` SNE Vx, nn (rule R91). -/
def execSneImm (x : RegIdx) (nn : Byte) (s : State) : Result := .next (s.skipIf (s.readV x != nn))

/-- `5xy0` SE Vx, Vy (rule R92); bits 3-0 are ignored (rule R58). -/
def execSeReg (x y : RegIdx) (_ignored : Nibble) (s : State) : Result := .next (s.skipIf (s.readV x == s.readV y))

/-- `9xy0` SNE Vx, Vy (rule R93); bits 3-0 are ignored (rule R58). -/
def execSneReg (x y : RegIdx) (_ignored : Nibble) (s : State) : Result := .next (s.skipIf (s.readV x != s.readV y))

end Sys2Proof.Machine
end

