-- ==== Sys2Proof/Machine/Timer.lean ====
section
/-! DEFINITION. The instructions that move a byte between a V register and a timer (spec/45_timer_access.md). -/

namespace Sys2Proof.Machine

/-- `Fx07` LD Vx, DT (rule R130). -/
def execLdVxDT (x : RegIdx) (s : State) : Result := .next (s.writeV x s.dt)

/-- `Fx15` LD DT, Vx (rule R131). -/
def execLdDTVx (x : RegIdx) (s : State) : Result := .next (s.setDt (s.readV x))

/-- `Fx18` LD ST, Vx (rule R132). -/
def execLdSTVx (x : RegIdx) (s : State) : Result := .next (s.setSt (s.readV x))

end Sys2Proof.Machine
end

