-- ==== Sys2Proof/Machine/Undefined.lean ====
section
/-! DEFINITION. The words that select no instruction (rules R59, R76, R152): a decode failure reports the word and its class
and changes nothing else; pc stays at the advanced value (log 14). -/

namespace Sys2Proof.Machine

/-- Group 8 with an unassigned low nibble: SECONDARY. -/
def execUndef8 (bits : Addr12) (s : State) : Result := .next (s.decodeFailure (encode (.undef8 bits)) .secondary)

/-- Group D: PRIMARY. -/
def execUndefD (bits : Addr12) (s : State) : Result := .next (s.decodeFailure (encode (.undefD bits)) .primary)

/-- Group E: PRIMARY. -/
def execUndefE (bits : Addr12) (s : State) : Result := .next (s.decodeFailure (encode (.undefE bits)) .primary)

/-- Group F with an unassigned low byte: SECONDARY. -/
def execUndefF (bits : Addr12) (s : State) : Result := .next (s.decodeFailure (encode (.undefF bits)) .secondary)

end Sys2Proof.Machine
end

