-- ==== Sys2Proof/Machine/Cycle.lean ====
section
/-! DEFINITION. The operation Step(rnd) of spec/40_step_fetch_decode.md around `exec`, and the performing of whichever operation
the environment presents (rules R2, R184). Step.lean only calls what stands here. -/

namespace Sys2Proof.Machine

/-- The state in which the fetched word executes: pc advanced (rule R71), the input `rnd` presented (rule R5), and nothing
reported yet. -/
def State.beginExecute (s : State) (rnd : Byte) : State := (s.advancePc.setRnd rnd).noReport

/-- The end of a step: `report Ok(w)` unless the instruction ended the operation with a report of its own (rules R9, R70,
R74); the input `rnd` is not kept (rule R22, log 8). -/
def State.finishStep (s : State) (w : Word) : State :=
  match s.outcome with
  | none => (s.report (.ok w)).setRnd 0x00#8
  | some _ => s.setRnd 0x00#8

/-- `finishStep` after an instruction that answered a next state. -/
def concludeStep (w : Word) : Result → Result
  | .next t => .next (t.finishStep w)
  | .fault r => .fault r
  | .refused r => .refused r

/-- `Step(rnd)` (rule R70), in the order of rule R157: the latched fault, the fetch fault, then the word's own effect. -/
def performStep (rnd : Byte) (s : State) : Result :=
  match s.fault with
  | some c => .next (s.report (.fault c))
  | none =>
    match s.fetchWord with
    | none => .next (s.raiseFault .fetchAddr)
    | some w => concludeStep w (exec (decodeWord w) (s.beginExecute rnd))

/-- The operation a request names (rule R184); a coincident Tick and Step are performed tick first (rule R4). -/
def perform (r : Request) (s : State) : Result :=
  match r with
  | .reset => .next s.resetOp
  | .load bytes offset => .next (s.loadOp bytes offset)
  | .tick => .next s.tickOp
  | .step rnd => performStep rnd s
  | .tickAndStep rnd => performStep rnd s.tickOp

/-- The next operation: the oldest scheduled request, or, when nothing is scheduled, a Step whose `rnd` is a free draw
(rules R3, R5, log 8, log 9). -/
def nextOperation (s : State) : Result :=
  match s.schedule with
  | r :: rest => perform r (s.setSchedule rest)
  | [] => performStep (Config.randomByte s.draws) s.countDraw

/-- Whether two bytes can be fetched at pc (rule R71). -/
def State.canFetch (s : State) : Bool := decide (s.pc.toNat + 1 < Config.memSize)

/-- The state made ready for a Step that fetches: no fault latched, nothing scheduled before it, and pc inside memory
(moved to `Config.programStart`, which lies inside, when it was not) (log 10). -/
def State.readyToFetch (s : State) : State :=
  { s with fault := none, schedule := [], pc := if s.canFetch then s.pc else Config.programStart }

/-- The word stored at pc as memory holds it, high byte first (rule R33), in a state ready to fetch it. -/
def State.withWordAtPc (s : State) (w : Word) : State :=
  let t := s.readyToFetch
  t.setMem (Memory.writeBytes t.mem t.pc.toNat [highByte w, lowByteOfWord w])

end Sys2Proof.Machine
end

