-- ==== Sys2Proof/Safety.lean ====
section
/-! DEFINITION. What counts as the end of a run and as a clean run (rules R75, R156, and U7 of
spec/93_implementation_defined.md), and the invariant of the machine. -/

namespace Sys2Proof.Machine

/-- The halt signal: the operation just performed was a Step whose outcome is `Ok(0x0000)` (rules R60, R75). -/
def State.halted (s : State) : Bool := s.outcome == some (.ok 0x0000#16)

/-- The operation just performed reported no fatal fault and no decode failure. -/
def State.cleanOutcome (s : State) : Bool :=
  match s.outcome with
  | some (.fault _) => false
  | some (.decodeFail _ _) => false
  | some (.ok _) => true
  | some .loaded => true
  | none => true

/-- The final state of a run (rule R75): the state after the first step whose outcome is the halt signal, if it comes within
`fuel` steps and no step before it reports a fault; a decode failure does not stop a run. -/
def runToHalt : Nat → State → Option State
  | 0, _ => none
  | fuel + 1, s =>
    match step s with
    | .next t => if t.halted then some t else if t.fault.isSome then none else runToHalt fuel t
    | .fault _ => none
    | .refused _ => none

/-- A run of `k` steps in which every operation has a clean outcome. -/
def runsClean : Nat → State → Bool
  | 0, _ => true
  | k + 1, s =>
    match step s with
    | .next t => t.cleanOutcome && runsClean k t
    | .fault _ => false
    | .refused _ => false

/-- The largest pc any rule can write: 0x0FFF + 0xFF by `Bnnn` (rule R15). -/
def maxPc : Nat := 0x10FE

/-- What holds in every state a run reaches, whatever PROGRAM_START is: memory is in its canonical form within its 4096 bytes,
pc is at most 0x10FE (rule R15) or still where Reset put it (rule R181), and every live return address is at most 4096 (rule
R80). -/
structure State.Inv (s : State) : Prop where
  mem_wf : Memory.wf s.mem
  pc_bound : s.pc.toNat ≤ maxPc ∨ s.pc = s.programStart
  stack_bound : ∀ k : Fin Config.stackDepth, k.val < s.sp.val → s.stack[k].toNat ≤ Config.memSize

end Sys2Proof.Machine
end

