-- ==== Sys2Proof/Certificates/Slice0/Obligations.lean ====
section
/-! DEFINITION. The statements about the machine that the provers settle. Each says in its docstring which rule of spec/ it
formalises; where a clause rests on a decision the spec marks as its own, or on a choice of this model, it names it. -/

open Sys2Proof Sys2Proof.Machine

/-! ### The words the statements use -/

/-- Every register outside the list holds what it held. -/
def Sys2Proof.Machine.RegsKept (s t : State) (except : List RegIdx) : Prop :=
  ∀ k : RegIdx, k ∉ except → t.readV k = s.readV k

/-- Every byte of memory reads as before. -/
def Sys2Proof.Machine.MemKept (s t : State) : Prop := ∀ a : Nat, t.memRead a = s.memRead a

/-- Every byte of memory outside the `n` bytes from address `a` on reads as before. -/
def Sys2Proof.Machine.MemKeptOutside (s t : State) (a n : Nat) : Prop :=
  ∀ k : Nat, (k < a ∨ a + n ≤ k) → t.memRead k = s.memRead k

/-- The operand a flag-writing instruction reads for register `k`: 0 for VF, which it has cleared (rule R110). -/
def Sys2Proof.Machine.operandAfterClear (s : State) (k : RegIdx) : Nat :=
  if k = 0xF#4 then 0 else (s.readV k).toNat

/-- `t` is `s` with the fatal fault `c` taken: latched, reported, and nothing else changed (rule R153). -/
def Sys2Proof.Machine.FaultTaken (s t : State) (c : Cause) (code : BitVec 4) : Prop :=
  t = { s with fault := some c, outcome := some (.fault c) } ∧ t.faultBit = 1#1 ∧ t.faultCause = code

/-- The word selects no instruction, and the class its decode failure reports (rule R59). -/
def Sys2Proof.Machine.FailsDecode (w : Word) (cls : FailClass) : Prop :=
  (cls = .primary ∧ (opField w = 0xD#4 ∨ opField w = 0xE#4)) ∨
  (cls = .secondary ∧ opField w = 0x8#4
    ∧ nField w ∈ [0x8#4, 0x9#4, 0xA#4, 0xB#4, 0xC#4, 0xD#4, 0xF#4]) ∨
  (cls = .secondary ∧ opField w = 0xF#4
    ∧ nnField w ∉ [0x07#8, 0x15#8, 0x18#8, 0x1E#8, 0x29#8, 0x33#8, 0x55#8, 0x65#8])

/-! ### Encoding -/

/-- Decoding an encoded well-formed instruction gives it back, with every operand at every value, and leaves the bytes after
it alone (spec/30_encoding.md). -/
def Obligations.DecodeOfEncodeIsTheInstruction : Prop :=
  ∀ (i : Instr) (rest : List Byte), i.wellFormed = true →
    decodeWord (encode i) = i ∧ decodeBytes (encodeBytes i ++ rest) = .ok (i, rest)

/-- Every one of the 65536 words decodes to a well-formed term of Instr whose encoding is that word: no two words share a term
(rules R54 to R58, R73). The 13952 words that rule R59 gives no instruction decode to the four UNDEF rows of
spec/opcode_table.json; that those rows are terms of Instr (log 14), and that ignored bits are kept as operands (log 12), is the
model's choice. -/
def Obligations.EveryWordDecodesAndEncodesBack : Prop :=
  ∀ w : Word, (decodeWord w).wellFormed = true ∧ encode (decodeWord w) = w

/-- Words written out from the encoding column of spec/opcode_table.json decode to their instructions. -/
def Obligations.SpecWordsDecodeToTheirInstructions : Prop :=
  decodeWord 0b0000000011101110#16 = .ret 0x0E#8 ∧ decodeWord 0b0010001100000000#16 = .call 0x300#12 ∧
  decodeWord 0b0011101001000010#16 = .seImm 0xA#4 0x42#8 ∧ decodeWord 0b0111101011111111#16 = .addImm 0xA#4 0xFF#8 ∧
  decodeWord 0b1000001000110110#16 = .shr 0x2#4 0x3#4 ∧ decodeWord 0b1011010000000000#16 = .jpV0 0x400#12 ∧
  decodeWord 0b1111001100010101#16 = .ldDTVx 0x3#4 ∧ decodeWord 0b1111001101100101#16 = .loadRegs 0x3#4 ∧
  decodeWord 0b1000000100101001#16 = .undef8 0x129#12 ∧ decodeWord 0b1101000100100011#16 = .undefD 0x123#12

/-- Bits an instruction does not examine have no effect: bits 11-4 of RET, bits 3-0 of 5xy0 and 9xy0, the y field of 8xy6 and
8xyE (rule R58, the spec's decision D7, log 12). -/
def Obligations.IgnoredBitsHaveNoEffect : Prop :=
  ∀ (s : State) (u w : Word), opField u = opField w →
    ((opField w = 0x0#4 ∧ nField u = 0xE#4 ∧ nField w = 0xE#4) ∨
     ((opField w = 0x5#4 ∨ opField w = 0x9#4) ∧ xField u = xField w ∧ yField u = yField w) ∨
     (opField w = 0x8#4 ∧ xField u = xField w ∧ nField u = nField w ∧ (nField w = 0x6#4 ∨ nField w = 0xE#4))) →
    exec (decodeWord u) s = exec (decodeWord w) s

/-! ### The step -/

/-- A step performs the oldest scheduled operation, whichever it is, or, when nothing is scheduled, a Step with a free random
byte (rules R2, R5; the schedule is log 9, the draw log 8). When nothing is scheduled, or a Step is, no fault is latched, and the
two bytes at pc decode to i, the step is exec of i in the state with pc advanced by 2, then the report `Ok(w)` unless i reported
something itself (rules R70 to R72, R74). The fields rnd, draws, outcome and schedule are the model's own (log 7, 8, 9). -/
def Obligations.StepRunsTheDecodedInstruction : Prop :=
  (∀ (s : State) (q : Request) (rest : List Request), s.schedule = q :: rest →
    step s = perform q { s with schedule := rest }) ∧
  (∀ s : State, s.schedule = [] →
    step s = perform (.step (Config.randomByte s.draws)) { s with draws := s.draws + 1 }) ∧
  (∀ (r : Byte) (s : State), perform (.step r) s = performStep r s) ∧
  ∀ (s : State) (hi lo : Byte) (i : Instr), s.fault = none →
    s.memRead s.pc.toNat = some hi → s.memRead (s.pc.toNat + 1) = some lo → decodeBytes [hi, lo] = .ok (i, []) →
    (s.schedule = [] → ∀ t : State,
      exec i { s with pc := s.pc + 2#16, rnd := Config.randomByte s.draws, draws := s.draws + 1, outcome := none } = .next t →
      step s = .next { t with outcome := some (t.outcome.getD (.ok (wordOfBytes hi lo))), rnd := 0x00#8 }) ∧
    (∀ (r : Byte) (rest : List Request), s.schedule = .step r :: rest → ∀ t : State,
      exec i { s with pc := s.pc + 2#16, rnd := r, schedule := rest, outcome := none } = .next t →
      step s = .next { t with outcome := some (t.outcome.getD (.ok (wordOfBytes hi lo))), rnd := 0x00#8 })

/-- No step of the machine stops it: every operation, in every state, has a next state (rules R150 to R157; that a fatal fault
is a next state is log 5), and it leaves the core's PROGRAM_START as it was configured (rule R8, log 1). -/
def Obligations.StepAlwaysAnswersANextState : Prop :=
  ∀ s : State, ∃ t : State, step s = .next t ∧ t.programStart = s.programStart

/-- What a Step reports (rules R6, R74, R157; the shape of the outcome is the spec's decision D25): the latched fault; else
FETCH_ADDR; else DecodeFail with the word and its class; else the fault the instruction raised; else Ok with the word. -/
def Obligations.StepReportsItsOutcome : Prop :=
  ∀ (r : Byte) (s t : State), performStep r s = .next t →
    (∀ c, s.fault = some c → t.outcome = some (.fault c)) ∧
    (s.fault = none →
      (s.fetchWord = none → t.outcome = some (.fault .fetchAddr)) ∧
      (∀ w, s.fetchWord = some w →
        (∀ cls, FailsDecode w cls → t.fault = none ∧ t.outcome = some (.decodeFail w cls)) ∧
        ((∀ cls, ¬ FailsDecode w cls) →
          (∀ c, t.fault = some c → t.outcome = some (.fault c)) ∧ (t.fault = none → t.outcome = some (.ok w)))))

/-- A fetch with pc at 4095 or above raises FETCH_ADDR, cause 1: pc is not advanced and nothing else changes (rule R154, the
spec's decision D12, log 6). -/
def Obligations.FetchOutsideMemoryFaults : Prop :=
  ∀ (r : Byte) (s : State), s.fault = none → 4095 ≤ s.pc.toNat →
    ∃ t : State, performStep r s = .next t ∧ FaultTaken s t .fetchAddr 1#4

/-- Instruction fetch is big-endian: the high byte stands at the lower address (rule R33). -/
def Obligations.FetchIsBigEndian : Prop :=
  ∀ (s : State) (hi lo : Byte), s.memRead s.pc.toNat = some hi → s.memRead (s.pc.toNat + 1) = some lo →
    ∃ w : Word, s.fetchWord = some w ∧ w.toNat = 256 * hi.toNat + lo.toNat

/-- A word stored by `Fx55` where pc points is what the next fetch reads (rule R42). -/
def Obligations.StoredWordIsFetchedNext : Prop :=
  ∀ (s : State) (x : RegIdx), 1 ≤ x.toNat → s.indexAddr = s.pc.toNat → s.indexAddr + x.toNat < 4096 →
    ∃ t : State, exec (.storeRegs x) s = .next t ∧
      t.fetchWord = some (wordOfBytes (s.readV 0x0#4) (s.readV 0x1#4))

/-- While a fault is latched a Step and a Load change nothing and re-report its cause, and a Tick still counts the timers down
(rules R156, R166; the spec's decisions D11 and D20, log 6, 20). -/
def Obligations.LatchedFaultStopsStepAndLoadNotTick : Prop :=
  ∀ (s : State) (c : Cause) (r : Byte) (bytes : List Byte) (offset : Nat), s.fault = some c →
    performStep r s = .next { s with outcome := some (.fault c) } ∧
    perform (.load bytes offset) s = .next { s with outcome := some (.fault c) } ∧
    ∃ t : State, perform .tick s = .next t ∧ t.fault = some c ∧
      t.dt.toNat = s.dt.toNat - 1 ∧ t.st.toNat = s.st.toNat - 1

/-- Only Reset clears the FAULT latch, and no operation overwrites a latched cause (rules R20, R161; the spec's decision D11,
log 6). -/
def Obligations.OnlyResetClearsTheFaultLatch : Prop :=
  ∀ (s t : State) (c : Cause), s.fault = some c → (∀ rest, s.schedule ≠ .reset :: rest) → step s = .next t →
    t.fault = some c

/-- A word that selects no instruction is a decode failure: the Step advances pc by 2, reports the word and its class, and
changes nothing else; each of the four UNDEF rows reports its word (rules R59, R76, R152; the spec's decision D17, log 14). -/
def Obligations.DecodeFailureOnlyAdvancesPcAndReports : Prop :=
  (∀ (r : Byte) (s : State) (w : Word) (cls : FailClass), s.fault = none → s.fetchWord = some w → FailsDecode w cls →
    ∃ t : State, performStep r s = .next t ∧ t.outcome = some (.decodeFail w cls) ∧ t.pc.toNat = s.pc.toNat + 2 ∧
      t = { s with pc := t.pc, outcome := t.outcome, rnd := 0x00#8 } ∧ MemKept s t) ∧
  (∀ (s : State) (bits : Addr12),
    (∃ t : State, exec (.undef8 bits) s = .next t ∧
      t = { s with outcome := some (.decodeFail (layoutNNN 0x8#4 bits) .secondary) }) ∧
    (∃ t : State, exec (.undefD bits) s = .next t ∧
      t = { s with outcome := some (.decodeFail (layoutNNN 0xD#4 bits) .primary) }) ∧
    (∃ t : State, exec (.undefE bits) s = .next t ∧
      t = { s with outcome := some (.decodeFail (layoutNNN 0xE#4 bits) .primary) }) ∧
    (∃ t : State, exec (.undefF bits) s = .next t ∧
      t = { s with outcome := some (.decodeFail (layoutNNN 0xF#4 bits) .secondary) }))

/-! ### Control flow -/

/-- A group-0 word with a low nibble other than E is a no-operation, 0x0000 and 0x00E0 among them: the Step advances pc by 2,
reports `Ok(w)`, and changes nothing else (rules R55, R81; the spec's decision D6, log 15). -/
def Obligations.SysIsANoOperation : Prop :=
  (∀ (s : State) (nnn : Addr12), exec (.sys nnn) s = .next s) ∧
  (∀ (r : Byte) (s : State) (w : Word), s.fault = none → s.fetchWord = some w → opField w = 0x0#4 → nField w ≠ 0xE#4 →
    ∃ t : State, performStep r s = .next t ∧ t.pc.toNat = s.pc.toNat + 2 ∧
      t = { s with pc := t.pc, outcome := some (.ok w), rnd := 0x00#8 })

/-- JP, which every word of group 1 is: pc takes the 12-bit address, and nothing else changes; only the target 0xFFF makes the
next fetch fail (rule R82). -/
def Obligations.JumpSetsPcToItsAddress : Prop :=
  (∀ w : Word, opField w = 0x1#4 → decodeWord w = .jp (nnnField w)) ∧
  (∀ (s : State) (nnn : Addr12), ∃ t : State, exec (.jp nnn) s = .next t ∧
    t.pc.toNat = nnn.toNat ∧ t = { s with pc := t.pc } ∧ RegsKept s t [] ∧ MemKept s t ∧
    (t.fetchWord = none ↔ nnn = 0xFFF#12))

/-- JP V0, which every word of group B is: pc takes the address plus V0, not reduced, and nothing else changes; the next fetch
fails from 4095 on (rule R84). -/
def Obligations.JumpV0AddsV0Unreduced : Prop :=
  (∀ w : Word, opField w = 0xB#4 → decodeWord w = .jpV0 (nnnField w)) ∧
  (∀ (s : State) (nnn : Addr12), ∃ t : State, exec (.jpV0 nnn) s = .next t ∧
    t.pc.toNat = nnn.toNat + (s.readV 0x0#4).toNat ∧ t = { s with pc := t.pc } ∧ RegsKept s t [] ∧ MemKept s t ∧
    (t.fetchWord = none ↔ 4095 ≤ nnn.toNat + (s.readV 0x0#4).toNat))

/-- CALL with at most 15 calls outstanding: the advanced pc goes to the slot of index SP, SP goes up by one, pc takes the
address; no other slot, register or byte changes (rule R83; the spec's decision D5, log 4). -/
def Obligations.CallPushesTheAdvancedPc : Prop :=
  ∀ (s : State) (nnn : Addr12), s.sp.val < 16 → ∃ t : State, exec (.call nnn) s = .next t ∧
    t.sp.val = s.sp.val + 1 ∧ t.pc.toNat = nnn.toNat ∧
    (∀ k : Fin Config.stackDepth, t.stack[k] = if k.val = s.sp.val then s.pc else s.stack[k]) ∧
    t = { s with stack := t.stack, sp := t.sp, pc := t.pc } ∧ RegsKept s t [] ∧ MemKept s t

/-- RET with a call outstanding: SP goes down by one and pc takes the slot of the new index SP; no slot, register or byte
changes (rules R17, R80; the spec's decision D5 and conflict C2, log 4). -/
def Obligations.RetPopsTheMostRecentAddress : Prop :=
  ∀ (s : State) (ignored : Byte), 0 < s.sp.val → ∃ t : State, exec (.ret ignored) s = .next t ∧
    t.sp.val + 1 = s.sp.val ∧ (∀ k : Fin Config.stackDepth, k.val = t.sp.val → t.pc = s.stack[k]) ∧
    t = { s with sp := t.sp, pc := t.pc } ∧ RegsKept s t [] ∧ MemKept s t

/-- CALL with 16 calls outstanding raises STACK_OVERFLOW, RET with none raises STACK_UNDERFLOW; pc stays at the advanced value
and nothing else is written (rules R80, R83, R151, R153; the spec's decisions D5, D11, D13, log 4, 6). -/
def Obligations.StackFaultsAreTakenPrecisely : Prop :=
  (∀ (s : State) (nnn : Addr12), s.sp.val = 16 →
    ∃ t : State, exec (.call nnn) s = .next t ∧ FaultTaken s t .stackOverflow 4#4) ∧
  (∀ (s : State) (ignored : Byte), s.sp.val = 0 →
    ∃ t : State, exec (.ret ignored) s = .next t ∧ FaultTaken s t .stackUnderflow 5#4)

/-- The stack is last in, first out: a RET in any state with the SP and the live slots a CALL left, whatever the slots above SP
hold (an inner CALL and RET rewrites them), returns to the CALL's saved pc and restores SP (rule R85). -/
def Obligations.RetUndoesCall : Prop :=
  ∀ (s t u : State) (nnn : Addr12) (ignored : Byte), s.sp.val < 16 → exec (.call nnn) s = .next t →
    u.sp = t.sp → (∀ k : Fin Config.stackDepth, k.val < t.sp.val → u.stack[k] = t.stack[k]) →
    ∃ z : State, exec (.ret ignored) u = .next z ∧ z.pc = s.pc ∧ z.sp = s.sp

/-! ### Skips -/

/-- SE and SNE with an immediate, which the words of groups 3 and 4 are: pc goes up by exactly 2 when the condition holds, by 0
otherwise, and nothing else changes (rules R90, R91). The bound on pc rules out the states past 0xFFFD that no run reaches
(rule R15). -/
def Obligations.SkipImmediateAddsTwoOrNothing : Prop :=
  (∀ w : Word, (opField w = 0x3#4 → decodeWord w = .seImm (xField w) (nnField w)) ∧
    (opField w = 0x4#4 → decodeWord w = .sneImm (xField w) (nnField w))) ∧
  ∀ (s : State) (x : RegIdx) (nn : Byte), s.pc.toNat + 2 < 65536 →
    (∃ t : State, exec (.seImm x nn) s = .next t ∧
      t.pc.toNat = s.pc.toNat + (if s.readV x = nn then 2 else 0) ∧
      t = { s with pc := t.pc } ∧ RegsKept s t [] ∧ MemKept s t) ∧
    (∃ t : State, exec (.sneImm x nn) s = .next t ∧
      t.pc.toNat = s.pc.toNat + (if s.readV x = nn then 0 else 2) ∧
      t = { s with pc := t.pc } ∧ RegsKept s t [] ∧ MemKept s t)

/-- SE and SNE of two registers, whatever the ignored low nibble (rules R92, R93; the spec's decision D7, log 12). -/
def Obligations.SkipRegisterAddsTwoOrNothing : Prop :=
  ∀ (s : State) (x y : RegIdx) (ignored : Nibble), s.pc.toNat + 2 < 65536 →
    (∃ t : State, exec (.seReg x y ignored) s = .next t ∧
      t.pc.toNat = s.pc.toNat + (if s.readV x = s.readV y then 2 else 0) ∧
      t = { s with pc := t.pc } ∧ RegsKept s t [] ∧ MemKept s t) ∧
    (∃ t : State, exec (.sneReg x y ignored) s = .next t ∧
      t.pc.toNat = s.pc.toNat + (if s.readV x = s.readV y then 0 else 2) ∧
      t = { s with pc := t.pc } ∧ RegsKept s t [] ∧ MemKept s t)

/-! ### Immediates and random -/

/-- LD Vx, nn and ADD Vx, nn, which the words of groups 6 and 7 are: the immediate, or the sum mod 256; no other register, VF
among them, and no byte changes (rules R100, R101). -/
def Obligations.ImmediateLoadAndAdd : Prop :=
  (∀ w : Word, (opField w = 0x6#4 → decodeWord w = .ldImm (xField w) (nnField w)) ∧
    (opField w = 0x7#4 → decodeWord w = .addImm (xField w) (nnField w))) ∧
  ∀ (s : State) (x : RegIdx) (nn : Byte),
    (∃ t : State, exec (.ldImm x nn) s = .next t ∧ t.readV x = nn ∧
      t = { s with v := t.v } ∧ RegsKept s t [x] ∧ MemKept s t) ∧
    (∃ t : State, exec (.addImm x nn) s = .next t ∧ (t.readV x).toNat = ((s.readV x).toNat + nn.toNat) % 256 ∧
      t = { s with v := t.v } ∧ RegsKept s t [x] ∧ MemKept s t)

/-- LD I, nnn, which every word of group A is: I takes the zero-extended address and nothing else changes; an instruction that brings I to 4096 or above is
ADD I, Vx (rule R102). -/
def Obligations.LoadIndexZeroExtends : Prop :=
  (∀ w : Word, opField w = 0xA#4 → decodeWord w = .ldI (nnnField w)) ∧
  (∀ (s : State) (nnn : Addr12), ∃ t : State, exec (.ldI nnn) s = .next t ∧
    t.i.toNat = nnn.toNat ∧ t = { s with i := t.i } ∧ RegsKept s t [] ∧ MemKept s t) ∧
  (∀ (i : Instr) (s t : State), exec i s = .next t → t.i ≠ s.i → 4096 ≤ t.i.toNat → ∃ x, i = .addI x)

/-- RND Vx, nn: Vx takes the step's input masked with nn, whatever the input is, and nothing else changes (rule R103; the
spec's decision D15, log 8). -/
def Obligations.RandomByteIsMasked : Prop :=
  (∀ (s : State) (x : RegIdx) (nn : Byte), ∃ t : State, exec (.rnd x nn) s = .next t ∧
    t.readV x = s.rnd &&& nn ∧ t = { s with v := t.v } ∧ RegsKept s t [x] ∧ MemKept s t) ∧
  (∀ (r : Byte) (s : State) (w : Word), s.fault = none → s.fetchWord = some w → opField w = 0xC#4 →
    ∃ t : State, performStep r s = .next t ∧ t.readV (xField w) = r &&& nnField w ∧ RegsKept s t [xField w])

/-- The input of a Step is read only by RND: a Step that fetches another word is the same whatever its input (rule R5; the
spec's decision D15, log 8). -/
def Obligations.RandomInputReachesOnlyRnd : Prop :=
  ∀ (q r : Byte) (s : State), (∀ w, s.fetchWord = some w → opField w ≠ 0xC#4) → performStep q s = performStep r s

/-! ### The ALU -/

/-- LD, OR, AND and XOR of two registers, which the words of group 8 with low nibble 0 to 3 are: the destination takes the
source, or the bitwise result; no other register, VF among them, and no byte changes (rules R111 to R114). -/
def Obligations.CopyAndLogicWriteOnlyVx : Prop :=
  (∀ w : Word, opField w = 0x8#4 →
    (nField w = 0x0#4 → decodeWord w = .ldReg (xField w) (yField w)) ∧
    (nField w = 0x1#4 → decodeWord w = .orReg (xField w) (yField w)) ∧
    (nField w = 0x2#4 → decodeWord w = .andReg (xField w) (yField w)) ∧
    (nField w = 0x3#4 → decodeWord w = .xorReg (xField w) (yField w))) ∧
  ∀ (s : State) (x y : RegIdx),
    (∃ t : State, exec (.ldReg x y) s = .next t ∧ t.readV x = s.readV y ∧
      t = { s with v := t.v } ∧ RegsKept s t [x] ∧ MemKept s t) ∧
    (∃ t : State, exec (.orReg x y) s = .next t ∧
      (∀ b : Nat, (t.readV x).getLsbD b = ((s.readV x).getLsbD b || (s.readV y).getLsbD b)) ∧
      t = { s with v := t.v } ∧ RegsKept s t [x] ∧ MemKept s t) ∧
    (∃ t : State, exec (.andReg x y) s = .next t ∧
      (∀ b : Nat, (t.readV x).getLsbD b = ((s.readV x).getLsbD b && (s.readV y).getLsbD b)) ∧
      t = { s with v := t.v } ∧ RegsKept s t [x] ∧ MemKept s t) ∧
    (∃ t : State, exec (.xorReg x y) s = .next t ∧
      (∀ b : Nat, (t.readV x).getLsbD b = ((s.readV x).getLsbD b ^^ (s.readV y).getLsbD b)) ∧
      t = { s with v := t.v } ∧ RegsKept s t [x] ∧ MemKept s t)

/-- ADD Vx, Vy for every x and y: the sum of the operands read after VF is cleared, mod 256, with VF the carry; with x = F the
flag is what VF ends with (rules R110, R115). The order of the two writes is the spec's decision D9 (log 13). -/
def Obligations.AddRegisterSetsCarry : Prop :=
  ∀ (s : State) (x y : RegIdx), ∃ t : State, exec (.addReg x y) s = .next t ∧
    (x ≠ 0xF#4 → (t.readV x).toNat = (operandAfterClear s x + operandAfterClear s y) % 256) ∧
    t.readV 0xF#4 = (if 255 < operandAfterClear s x + operandAfterClear s y then 0x01#8 else 0x00#8) ∧
    t = { s with v := t.v } ∧ RegsKept s t [x, 0xF#4] ∧ MemKept s t

/-- SUB and SUBN for every x and y: the difference mod 256 of the operands read after VF is cleared, with VF 1 on borrow; with
x = F the flag is what VF ends with (rules R110, R116, R118). The order of the two writes is the spec's decision D9 (log 13). -/
def Obligations.SubtractionsSetBorrow : Prop :=
  ∀ (s : State) (x y : RegIdx),
    (∃ t : State, exec (.subReg x y) s = .next t ∧
      (x ≠ 0xF#4 → (t.readV x).toNat = (256 + operandAfterClear s x - operandAfterClear s y) % 256) ∧
      t.readV 0xF#4 = (if operandAfterClear s x < operandAfterClear s y then 0x01#8 else 0x00#8) ∧
      t = { s with v := t.v } ∧ RegsKept s t [x, 0xF#4] ∧ MemKept s t) ∧
    (∃ t : State, exec (.subnReg x y) s = .next t ∧
      (x ≠ 0xF#4 → (t.readV x).toNat = (256 + operandAfterClear s y - operandAfterClear s x) % 256) ∧
      t.readV 0xF#4 = (if operandAfterClear s y < operandAfterClear s x then 0x01#8 else 0x00#8) ∧
      t = { s with v := t.v } ∧ RegsKept s t [x, 0xF#4] ∧ MemKept s t)

/-- SHR and SHL for every x, whatever the ignored y field: Vx shifted by one in place, VF the bit shifted out; with x = F the
operand reads 0 after the clear, so VF ends 0 (rules R110, R117, R119; the spec's decisions D7 and D9, log 12, 13). -/
def Obligations.ShiftsSetTheBitShiftedOut : Prop :=
  ∀ (s : State) (x : RegIdx) (ignored : Nibble),
    (∃ t : State, exec (.shr x ignored) s = .next t ∧
      (t.readV x).toNat = (if x = 0xF#4 then 0 else operandAfterClear s x / 2) ∧
      (t.readV 0xF#4).toNat = operandAfterClear s x % 2 ∧
      t = { s with v := t.v } ∧ RegsKept s t [x, 0xF#4] ∧ MemKept s t) ∧
    (∃ t : State, exec (.shl x ignored) s = .next t ∧
      (t.readV x).toNat = (if x = 0xF#4 then 0 else 2 * operandAfterClear s x % 256) ∧
      (t.readV 0xF#4).toNat = operandAfterClear s x / 128 ∧
      t = { s with v := t.v } ∧ RegsKept s t [x, 0xF#4] ∧ MemKept s t)

/-! ### Timers -/

/-- LD Vx, DT reads the delay timer and leaves it; LD DT, Vx and LD ST, Vx set the timer named and leave the other; nothing
else changes (rules R130 to R132). -/
def Obligations.TimerMovesCopyOneByte : Prop :=
  ∀ (s : State) (x : RegIdx),
    (∃ t : State, exec (.ldVxDT x) s = .next t ∧ t.readV x = s.dt ∧
      t = { s with v := t.v } ∧ RegsKept s t [x] ∧ MemKept s t) ∧
    (∃ t : State, exec (.ldDTVx x) s = .next t ∧ t.dt = s.readV x ∧
      t = { s with dt := t.dt } ∧ RegsKept s t [] ∧ MemKept s t) ∧
    (∃ t : State, exec (.ldSTVx x) s = .next t ∧ t.st = s.readV x ∧
      t = { s with st := t.st } ∧ RegsKept s t [] ∧ MemKept s t)

/-- A Step never touches the timers except through Fx15 and Fx18, and neither does a Load: they count down by Tick only
(rule R77). -/
def Obligations.StepTouchesTimersOnlyThroughFx15AndFx18 : Prop :=
  (∀ (r : Byte) (s t : State), performStep r s = .next t →
    ((∀ w, s.fetchWord = some w → ¬(opField w = 0xF#4 ∧ nnField w = 0x15#8)) → t.dt = s.dt) ∧
    ((∀ w, s.fetchWord = some w → ¬(opField w = 0xF#4 ∧ nnField w = 0x18#8)) → t.st = s.st)) ∧
  (∀ (bytes : List Byte) (offset : Nat) (s t : State), perform (.load bytes offset) s = .next t →
    t.dt = s.dt ∧ t.st = s.st)

/-- Tick: each timer goes down by one if it is above zero and stays at zero otherwise; nothing else changes and nothing is
reported (rule R163). -/
def Obligations.TickCountsDownToZero : Prop :=
  ∀ s : State, ∃ t : State, perform .tick s = .next t ∧
    t.dt.toNat = s.dt.toNat - 1 ∧ t.st.toNat = s.st.toNat - 1 ∧
    t = { s with dt := t.dt, st := t.st, outcome := none } ∧ RegsKept s t [] ∧ MemKept s t

/-- After k scheduled ticks each timer holds its value less k, floored at zero, whether or not a fault is latched
(rules R164, R166). -/
def Obligations.TimersFallByTheNumberOfTicks : Prop :=
  ∀ (k : Nat) (s : State) (rest : List Request), s.schedule = List.replicate k .tick ++ rest →
    ∃ t : State, Host.Core.run Sys2Proof.core k s = .next t ∧
      t.dt.toNat = s.dt.toNat - k ∧ t.st.toNat = s.st.toNat - k ∧ t.schedule = rest

/-- A Tick and a Step presented at the same instant, whatever the Step fetches and whether or not a fault is latched: the step is
the Step in the state u in which both timers are counted down already. So an Fx07 in it reads DT counted down, and an Fx15 or an
Fx18 in it leaves its timer at Vx (rule R4; the spec's decision D2, log 20; the schedule and outcome fields are log 9 and 7). -/
def Obligations.CoincidentTickComesFirst : Prop :=
  ∀ (s : State) (r : Byte) (rest : List Request), s.schedule = .tickAndStep r :: rest →
    ∃ u : State, u.dt.toNat = s.dt.toNat - 1 ∧ u.st.toNat = s.st.toNat - 1 ∧
      u = { s with schedule := rest, dt := u.dt, st := u.st, outcome := none } ∧ step s = performStep r u ∧
      (∀ w : Word, s.fault = none → s.fetchWord = some w → opField w = 0xF#4 → ∃ t : State, step s = .next t ∧
        (nnField w = 0x07#8 → (t.readV (xField w)).toNat = s.dt.toNat - 1 ∧ t.dt.toNat = s.dt.toNat - 1) ∧
        (nnField w = 0x15#8 → t.dt = s.readV (xField w) ∧ t.st.toNat = s.st.toNat - 1) ∧
        (nnField w = 0x18#8 → t.st = s.readV (xField w) ∧ t.dt.toNat = s.dt.toNat - 1))

/-! ### Index and memory -/

/-- ADD I, Vx for every x: I takes the sum mod 65536 with the operand read after VF is cleared, VF the carry out of bit 15; no
other register and no byte changes (rules R110, R140; the spec's decision D9, log 13). -/
def Obligations.AddIndexSetsSixteenBitCarry : Prop :=
  ∀ (s : State) (x : RegIdx), ∃ t : State, exec (.addI x) s = .next t ∧
    t.i.toNat = (s.i.toNat + operandAfterClear s x) % 65536 ∧
    t.readV 0xF#4 = (if 65535 < s.i.toNat + operandAfterClear s x then 0x01#8 else 0x00#8) ∧
    t = { s with v := t.v, i := t.i } ∧ RegsKept s t [0xF#4] ∧ MemKept s t

/-- LD F, Vx: I takes five times the whole byte, and nothing else changes (rule R141; the spec's decision D8, log 16). -/
def Obligations.SpriteOffsetIsFiveTimesVx : Prop :=
  ∀ (s : State) (x : RegIdx), ∃ t : State, exec (.ldF x) s = .next t ∧
    t.i.toNat = 5 * (s.readV x).toNat ∧ t = { s with i := t.i } ∧ RegsKept s t [] ∧ MemKept s t

/-- LD B, Vx with its three addresses inside memory: the hundreds, tens and ones of Vx at I, I + 1, I + 2; no other byte and no
register changes (rules R38, R44, R142). -/
def Obligations.BcdDigitsAreStoredAtIndex : Prop :=
  ∀ (s : State) (x : RegIdx), s.indexAddr + 2 < 4096 → ∃ t : State, exec (.ldB x) s = .next t ∧
    t.memRead s.indexAddr = some (BitVec.ofNat 8 ((s.readV x).toNat / 100)) ∧
    t.memRead (s.indexAddr + 1) = some (BitVec.ofNat 8 ((s.readV x).toNat / 10 % 10)) ∧
    t.memRead (s.indexAddr + 2) = some (BitVec.ofNat 8 ((s.readV x).toNat % 10)) ∧
    t = { s with mem := t.mem } ∧ RegsKept s t [] ∧ MemKeptOutside s t s.indexAddr 3

/-- LD [I], Vx with its addresses inside memory: V0..Vx at I..I + x, Vx included; I, every register and every other byte stay
(rules R38, R44, R143). -/
def Obligations.RegistersAreStoredAtIndex : Prop :=
  ∀ (s : State) (x : RegIdx), s.indexAddr + x.toNat < 4096 → ∃ t : State, exec (.storeRegs x) s = .next t ∧
    (∀ k : RegIdx, k.toNat ≤ x.toNat → t.memRead (s.indexAddr + k.toNat) = some (s.readV k)) ∧
    t = { s with mem := t.mem } ∧ RegsKept s t [] ∧ MemKeptOutside s t s.indexAddr (x.toNat + 1)

/-- LD Vx, [I] with its addresses inside memory: V0..Vx take the bytes at I..I + x, Vx included; I, the registers above Vx and
every byte stay (rules R38, R44, R144). -/
def Obligations.RegistersAreLoadedFromIndex : Prop :=
  ∀ (s : State) (x : RegIdx), s.indexAddr + x.toNat < 4096 → ∃ t : State, exec (.loadRegs x) s = .next t ∧
    (∀ k : RegIdx, k.toNat ≤ x.toNat → s.memRead (s.indexAddr + k.toNat) = some (t.readV k)) ∧
    (∀ k : RegIdx, x.toNat < k.toNat → t.readV k = s.readV k) ∧
    t = { s with v := t.v } ∧ MemKept s t

/-- A memory instruction whose range passes the last byte raises its data-address fault before anything is written, with no
wrap of the address (rules R38, R44, R142 to R144, R151, R153; the spec's decisions D11, D13, D14, log 6, 17). -/
def Obligations.DataAddressFaultsAreTakenPrecisely : Prop :=
  ∀ (s : State) (x : RegIdx),
    (4096 ≤ s.indexAddr + 2 → ∃ t : State, exec (.ldB x) s = .next t ∧ FaultTaken s t .dataAddrWrite 3#4) ∧
    (4096 ≤ s.indexAddr + x.toNat →
      (∃ t : State, exec (.storeRegs x) s = .next t ∧ FaultTaken s t .dataAddrWrite 3#4) ∧
      (∃ t : State, exec (.loadRegs x) s = .next t ∧ FaultTaken s t .dataAddrRead 2#4))

/-- Fx55 then Fx65, with I and the stored bytes as the Fx55 left them and any registers at all in between, restores V0..Vx
(rule R145). -/
def Obligations.DumpThenLoadRestoresRegisters : Prop :=
  ∀ (s t u : State) (x : RegIdx), s.indexAddr + x.toNat ≤ 4095 → exec (.storeRegs x) s = .next t → u.i = t.i →
    (∀ a, s.indexAddr ≤ a → a ≤ s.indexAddr + x.toNat → u.memRead a = t.memRead a) →
    ∃ z : State, exec (.loadRegs x) u = .next z ∧ ∀ k : RegIdx, k.toNat ≤ x.toNat → z.readV k = s.readV k

/-- One-byte memory accesses: a byte written at a valid address is read back, no other byte changes and nothing but memory
does; at an address of 4096 or above both accesses are address faults (rules R30 to R32). -/
def Obligations.MemoryReadsBackWhatWasWritten : Prop :=
  ∀ (s : State) (a : Nat) (b : Byte),
    (a < 4096 → ∃ t : State, s.memWrite a b = some t ∧ t.memRead a = some b ∧
      (∀ k, k ≠ a → t.memRead k = s.memRead k) ∧ t = { s with mem := t.mem }) ∧
    (4096 ≤ a → s.memWrite a b = none ∧ s.memRead a = none)

/-! ### Load and Reset -/

/-- Load, with no fault latched: the bytes copied in order from the offset on and nothing else changed when they end inside
memory, ending exactly at its end included; otherwise LOAD_RESOURCE, cause 6, and no byte written (rules R39, R155; the spec's
decision D18, log 19). -/
def Obligations.LoadCopiesBytesOrFaults : Prop :=
  ∀ (s : State) (bytes : List Byte) (offset : Nat), s.fault = none →
    (offset + bytes.length ≤ 4096 → ∃ t : State, perform (.load bytes offset) s = .next t ∧
      (∀ (k : Nat) (h : k < bytes.length), t.memRead (offset + k) = some bytes[k]) ∧
      MemKeptOutside s t offset bytes.length ∧ t = { s with mem := t.mem, outcome := some .loaded }) ∧
    (4096 < offset + bytes.length → ∃ t : State, perform (.load bytes offset) s = .next t ∧
      FaultTaken s t .loadResource 6#4)

/-- Reset, in any state and whatever the core's PROGRAM_START is: every byte 0x00, pc = PROGRAM_START, every V, I, SP, DT and ST
zero, FAULT 0 with cause NONE (rules R8, R23, R180; zero registers are the spec's decision D3, log 2; PROGRAM_START is the state's
own, log 1). A scheduled Reset gives that state but for the stack slots, which rule R24 leaves open; that it keeps PROGRAM_START is
the parameter's being one, and that it keeps the environment's schedule and count of draws is the model's choice (log 18), as are
the fields outcome and rnd (log 7, 8). -/
def Obligations.ResetRestoresEveryResetValue : Prop :=
  (∀ p : Word,
    (∀ a, a < 4096 → (State.resetAt p).memRead a = some 0x00#8) ∧ (State.resetAt p).pc = p ∧
    (∀ k : RegIdx, (State.resetAt p).readV k = 0x00#8) ∧ (State.resetAt p).i = 0x0000#16 ∧ (State.resetAt p).sp.val = 0 ∧
    (State.resetAt p).dt = 0x00#8 ∧ (State.resetAt p).st = 0x00#8 ∧
    (State.resetAt p).faultBit = 0#1 ∧ (State.resetAt p).faultCause = 0#4 ∧
    (State.resetAt p).programStart = p) ∧
  (∀ (s : State) (rest : List Request), s.schedule = .reset :: rest →
    ∃ t : State, step s = .next t ∧
      t = { State.resetAt s.programStart with stack := t.stack, draws := s.draws, schedule := rest })

/-! ### Rules about the whole machine -/

/-- The invariant is kept by every step, whatever operation it performs and whatever PROGRAM_START is: memory in its canonical
form, pc at most 0x10FE or at PROGRAM_START, live return addresses at most 4096 (rules R8, R15, R80, R181; the canonical form is
log 23; PROGRAM_START is the state's own, log 1, and its number is not used). -/
def Obligations.EveryStepKeepsTheInvariant : Prop := ∀ s t : State, s.Inv → step s = .next t → t.Inv

/-- The invariant holds right after reset, whatever PROGRAM_START is (rules R8, R23; log 1), and so in `State.reset`. -/
def Obligations.ResetMeetsTheInvariant : Prop := (∀ p : Word, (State.resetAt p).Inv) ∧ State.reset.Inv

/-- No instruction but Fx33 and Fx55 writes memory (rule R7; the spec's decision D10). -/
def Obligations.OnlyStoresWriteMemory : Prop :=
  ∀ (i : Instr) (s t : State), exec i s = .next t → (∀ x, i ≠ .ldB x) → (∀ x, i ≠ .storeRegs x) → MemKept s t

/-- No instruction but Annn, Fx1E and Fx29 writes I, and none but 2nnn and 0nnE touches the stack or SP (rules R7, R13, R16;
the spec's decision D10). -/
def Obligations.OnlyNamedInstructionsWriteIndexAndStack : Prop :=
  ∀ (i : Instr) (s t : State), exec i s = .next t →
    ((∀ nnn, i ≠ .ldI nnn) → (∀ x, i ≠ .addI x) → (∀ x, i ≠ .ldF x) → t.i = s.i) ∧
    ((∀ nnn, i ≠ .call nnn) → (∀ g, i ≠ .ret g) → t.stack = s.stack ∧ t.sp = s.sp)

/-- VF is written as a flag by the six instructions of rule R110 only: any other instruction whose destination is not VF leaves
VF alone (rules R7, R11). -/
def Obligations.OnlySixInstructionsWriteTheFlag : Prop :=
  ∀ (i : Instr) (s t : State), exec i s = .next t →
    (∀ x y, i ≠ .addReg x y) → (∀ x y, i ≠ .subReg x y) → (∀ x y, i ≠ .subnReg x y) → (∀ x g, i ≠ .shr x g) →
    (∀ x g, i ≠ .shl x g) → (∀ x, i ≠ .addI x) →
    (∀ nn, i ≠ .ldImm 0xF#4 nn) → (∀ nn, i ≠ .addImm 0xF#4 nn) → (∀ y, i ≠ .ldReg 0xF#4 y) → (∀ y, i ≠ .orReg 0xF#4 y) →
    (∀ y, i ≠ .andReg 0xF#4 y) → (∀ y, i ≠ .xorReg 0xF#4 y) → (∀ nn, i ≠ .rnd 0xF#4 nn) → i ≠ .ldVxDT 0xF#4 →
    i ≠ .loadRegs 0xF#4 → t.readV 0xF#4 = s.readV 0xF#4

/-- Nothing reads the sound timer: two states that differ in ST only step to states that differ in ST only (rule R18, "no
instruction reads ST"; the spec's decision D22). -/
def Obligations.SoundTimerInfluencesNothingElse : Prop :=
  ∀ (s t : State) (b : Byte), step s = .next t → ∃ c : Byte, step { s with st := b } = .next { t with st := c }

/-- The contents of the stack slots not in use are unobservable: two states that differ in those slots only step to states that
differ in such slots only (rule R24). So the zero the model gives them at reset (log 3) influences nothing. -/
def Obligations.DeadStackSlotsInfluenceNothing : Prop :=
  ∀ (s t : State) (other : Vector Word Config.stackDepth),
    (∀ k : Fin Config.stackDepth, k.val < s.sp.val → other[k] = s.stack[k]) → step s = .next t →
    ∃ after : Vector Word Config.stackDepth, step { s with stack := other } = .next { t with stack := after } ∧
      ∀ k : Fin Config.stackDepth, k.val < t.sp.val → after[k] = t.stack[k]
end

