-- ==== Sys2Proof/Laws/Encoding.lean ====
section
/-! SUPPORT. The fields of each layout, and the layouts of a word's own fields: what decoding and encoding are undone by. -/

namespace Sys2Proof

/-! ### The fields of a layout -/

section
variable (op n : Nibble) (x y : RegIdx) (nn : Byte) (nnn : Addr12)

@[simp] theorem opField_layoutNNN : opField (layoutNNN op nnn) = op := by
  apply BitVec.eq_of_toNat_eq
  simp [opField, layoutNNN, Nat.shiftRight_eq_div_pow]
  omega

@[simp] theorem nnnField_layoutNNN : nnnField (layoutNNN op nnn) = nnn := by
  apply BitVec.eq_of_toNat_eq
  simp [nnnField, layoutNNN]
  omega

@[simp] theorem nField_layoutNNN : nField (layoutNNN op nnn) = lowNibble nnn := by
  apply BitVec.eq_of_toNat_eq
  simp [nField, layoutNNN, lowNibble]
  omega

@[simp] theorem nnField_layoutNNN : nnField (layoutNNN op nnn) = lowByte nnn := by
  apply BitVec.eq_of_toNat_eq
  simp [nnField, layoutNNN, lowByte]
  omega

@[simp] theorem opField_layoutXNN : opField (layoutXNN op x nn) = op := by
  apply BitVec.eq_of_toNat_eq
  simp [opField, layoutXNN, Nat.shiftRight_eq_div_pow]
  omega

@[simp] theorem xField_layoutXNN : xField (layoutXNN op x nn) = x := by
  apply BitVec.eq_of_toNat_eq
  simp [xField, layoutXNN, Nat.shiftRight_eq_div_pow]
  omega

@[simp] theorem nnField_layoutXNN : nnField (layoutXNN op x nn) = nn := by
  apply BitVec.eq_of_toNat_eq
  simp [nnField, layoutXNN]
  omega

@[simp] theorem opField_layoutXYN : opField (layoutXYN op x y n) = op := by
  apply BitVec.eq_of_toNat_eq
  simp [opField, layoutXYN, Nat.shiftRight_eq_div_pow]
  omega

@[simp] theorem xField_layoutXYN : xField (layoutXYN op x y n) = x := by
  apply BitVec.eq_of_toNat_eq
  simp [xField, layoutXYN, Nat.shiftRight_eq_div_pow]
  omega

@[simp] theorem yField_layoutXYN : yField (layoutXYN op x y n) = y := by
  apply BitVec.eq_of_toNat_eq
  simp [yField, layoutXYN, Nat.shiftRight_eq_div_pow]
  omega

@[simp] theorem nField_layoutXYN : nField (layoutXYN op x y n) = n := by
  apply BitVec.eq_of_toNat_eq
  simp [nField, layoutXYN]
  omega

@[simp] theorem opField_layoutRet : opField (layoutRet nn) = 0x0#4 := by
  apply BitVec.eq_of_toNat_eq
  simp [opField, layoutRet, Nat.shiftRight_eq_div_pow]
  omega

@[simp] theorem midField_layoutRet : midField (layoutRet nn) = nn := by
  apply BitVec.eq_of_toNat_eq
  simp [midField, layoutRet, Nat.shiftRight_eq_div_pow]
  omega

@[simp] theorem nField_layoutRet : nField (layoutRet nn) = 0xE#4 := by
  apply BitVec.eq_of_toNat_eq
  simp [nField, layoutRet]

end

/-! ### A word from its own fields -/

section
variable (w : Word)

theorem layoutNNN_fields : layoutNNN (opField w) (nnnField w) = w := by
  apply BitVec.eq_of_toNat_eq
  simp [opField, nnnField, layoutNNN, Nat.shiftRight_eq_div_pow]
  omega

theorem layoutXNN_fields : layoutXNN (opField w) (xField w) (nnField w) = w := by
  apply BitVec.eq_of_toNat_eq
  simp [opField, xField, nnField, layoutXNN, Nat.shiftRight_eq_div_pow]
  omega

theorem layoutXYN_fields : layoutXYN (opField w) (xField w) (yField w) (nField w) = w := by
  apply BitVec.eq_of_toNat_eq
  simp [opField, xField, yField, nField, layoutXYN, Nat.shiftRight_eq_div_pow]
  omega

theorem layoutRet_fields (h0 : opField w = 0x0#4) (hE : nField w = 0xE#4) : layoutRet (midField w) = w := by
  have h0' := congrArg BitVec.toNat h0
  have hE' := congrArg BitVec.toNat hE
  apply BitVec.eq_of_toNat_eq
  simp [opField, nField, midField, layoutRet, Nat.shiftRight_eq_div_pow] at h0' hE' ⊢
  omega

theorem lowNibble_nnnField : lowNibble (nnnField w) = nField w := by
  apply BitVec.eq_of_toNat_eq
  simp [lowNibble, nnnField, nField]

theorem lowByte_nnnField : lowByte (nnnField w) = nnField w := by
  apply BitVec.eq_of_toNat_eq
  simp [lowByte, nnnField, nnField]

/-- The bytes of a word, high byte first, make the word (rule R33). -/
@[simp] theorem wordOfBytes_bytes : wordOfBytes (highByte w) (lowByteOfWord w) = w := by
  apply BitVec.eq_of_toNat_eq
  simp [wordOfBytes, highByte, lowByteOfWord, Nat.shiftRight_eq_div_pow]
  omega

end

@[simp] theorem highByte_wordOfBytes (hi lo : Byte) : highByte (wordOfBytes hi lo) = hi := by
  apply BitVec.eq_of_toNat_eq
  simp [wordOfBytes, highByte, Nat.shiftRight_eq_div_pow]
  omega

@[simp] theorem lowByteOfWord_wordOfBytes (hi lo : Byte) : lowByteOfWord (wordOfBytes hi lo) = lo := by
  apply BitVec.eq_of_toNat_eq
  simp [wordOfBytes, lowByteOfWord]
  omega

end Sys2Proof
end

