-- ==== Sys2Proof/Laws/State.lean ====
section
/-! SUPPORT. One lemma per field per update, so that no later proof unfolds a record update. -/

namespace Sys2Proof.Machine

/-! ### writeV -/

@[simp] theorem State.writeV_i (s : State) (x : RegIdx) (b : Byte) : (s.writeV x b).i = s.i := rfl
@[simp] theorem State.writeV_pc (s : State) (x : RegIdx) (b : Byte) : (s.writeV x b).pc = s.pc := rfl
@[simp] theorem State.writeV_stack (s : State) (x : RegIdx) (b : Byte) : (s.writeV x b).stack = s.stack := rfl
@[simp] theorem State.writeV_sp (s : State) (x : RegIdx) (b : Byte) : (s.writeV x b).sp = s.sp := rfl
@[simp] theorem State.writeV_dt (s : State) (x : RegIdx) (b : Byte) : (s.writeV x b).dt = s.dt := rfl
@[simp] theorem State.writeV_st (s : State) (x : RegIdx) (b : Byte) : (s.writeV x b).st = s.st := rfl
@[simp] theorem State.writeV_mem (s : State) (x : RegIdx) (b : Byte) : (s.writeV x b).mem = s.mem := rfl
@[simp] theorem State.writeV_fault (s : State) (x : RegIdx) (b : Byte) : (s.writeV x b).fault = s.fault := rfl
@[simp] theorem State.writeV_programStart (s : State) (x : RegIdx) (b : Byte) : (s.writeV x b).programStart = s.programStart := rfl
@[simp] theorem State.writeV_outcome (s : State) (x : RegIdx) (b : Byte) : (s.writeV x b).outcome = s.outcome := rfl
@[simp] theorem State.writeV_rnd (s : State) (x : RegIdx) (b : Byte) : (s.writeV x b).rnd = s.rnd := rfl
@[simp] theorem State.writeV_draws (s : State) (x : RegIdx) (b : Byte) : (s.writeV x b).draws = s.draws := rfl
@[simp] theorem State.writeV_schedule (s : State) (x : RegIdx) (b : Byte) : (s.writeV x b).schedule = s.schedule := rfl

/-! ### setI -/

@[simp] theorem State.setI_v (s : State) (w : Word) : (s.setI w).v = s.v := rfl
@[simp] theorem State.setI_i (s : State) (w : Word) : (s.setI w).i = w := rfl
@[simp] theorem State.setI_pc (s : State) (w : Word) : (s.setI w).pc = s.pc := rfl
@[simp] theorem State.setI_stack (s : State) (w : Word) : (s.setI w).stack = s.stack := rfl
@[simp] theorem State.setI_sp (s : State) (w : Word) : (s.setI w).sp = s.sp := rfl
@[simp] theorem State.setI_dt (s : State) (w : Word) : (s.setI w).dt = s.dt := rfl
@[simp] theorem State.setI_st (s : State) (w : Word) : (s.setI w).st = s.st := rfl
@[simp] theorem State.setI_mem (s : State) (w : Word) : (s.setI w).mem = s.mem := rfl
@[simp] theorem State.setI_fault (s : State) (w : Word) : (s.setI w).fault = s.fault := rfl
@[simp] theorem State.setI_programStart (s : State) (w : Word) : (s.setI w).programStart = s.programStart := rfl
@[simp] theorem State.setI_outcome (s : State) (w : Word) : (s.setI w).outcome = s.outcome := rfl
@[simp] theorem State.setI_rnd (s : State) (w : Word) : (s.setI w).rnd = s.rnd := rfl
@[simp] theorem State.setI_draws (s : State) (w : Word) : (s.setI w).draws = s.draws := rfl
@[simp] theorem State.setI_schedule (s : State) (w : Word) : (s.setI w).schedule = s.schedule := rfl
@[simp] theorem State.setI_readV (s : State) (w : Word) (y : RegIdx) : (s.setI w).readV y = s.readV y := rfl

/-! ### setPc -/

@[simp] theorem State.setPc_v (s : State) (w : Word) : (s.setPc w).v = s.v := rfl
@[simp] theorem State.setPc_i (s : State) (w : Word) : (s.setPc w).i = s.i := rfl
@[simp] theorem State.setPc_pc (s : State) (w : Word) : (s.setPc w).pc = w := rfl
@[simp] theorem State.setPc_stack (s : State) (w : Word) : (s.setPc w).stack = s.stack := rfl
@[simp] theorem State.setPc_sp (s : State) (w : Word) : (s.setPc w).sp = s.sp := rfl
@[simp] theorem State.setPc_dt (s : State) (w : Word) : (s.setPc w).dt = s.dt := rfl
@[simp] theorem State.setPc_st (s : State) (w : Word) : (s.setPc w).st = s.st := rfl
@[simp] theorem State.setPc_mem (s : State) (w : Word) : (s.setPc w).mem = s.mem := rfl
@[simp] theorem State.setPc_fault (s : State) (w : Word) : (s.setPc w).fault = s.fault := rfl
@[simp] theorem State.setPc_programStart (s : State) (w : Word) : (s.setPc w).programStart = s.programStart := rfl
@[simp] theorem State.setPc_outcome (s : State) (w : Word) : (s.setPc w).outcome = s.outcome := rfl
@[simp] theorem State.setPc_rnd (s : State) (w : Word) : (s.setPc w).rnd = s.rnd := rfl
@[simp] theorem State.setPc_draws (s : State) (w : Word) : (s.setPc w).draws = s.draws := rfl
@[simp] theorem State.setPc_schedule (s : State) (w : Word) : (s.setPc w).schedule = s.schedule := rfl
@[simp] theorem State.setPc_readV (s : State) (w : Word) (y : RegIdx) : (s.setPc w).readV y = s.readV y := rfl

/-! ### setSlot -/

@[simp] theorem State.setSlot_v (s : State) (k : Fin Config.stackDepth) (w : Word) : (s.setSlot k w).v = s.v := rfl
@[simp] theorem State.setSlot_i (s : State) (k : Fin Config.stackDepth) (w : Word) : (s.setSlot k w).i = s.i := rfl
@[simp] theorem State.setSlot_pc (s : State) (k : Fin Config.stackDepth) (w : Word) : (s.setSlot k w).pc = s.pc := rfl
@[simp] theorem State.setSlot_stack (s : State) (k : Fin Config.stackDepth) (w : Word) : (s.setSlot k w).stack = s.stack.set k w := rfl
@[simp] theorem State.setSlot_sp (s : State) (k : Fin Config.stackDepth) (w : Word) : (s.setSlot k w).sp = s.sp := rfl
@[simp] theorem State.setSlot_dt (s : State) (k : Fin Config.stackDepth) (w : Word) : (s.setSlot k w).dt = s.dt := rfl
@[simp] theorem State.setSlot_st (s : State) (k : Fin Config.stackDepth) (w : Word) : (s.setSlot k w).st = s.st := rfl
@[simp] theorem State.setSlot_mem (s : State) (k : Fin Config.stackDepth) (w : Word) : (s.setSlot k w).mem = s.mem := rfl
@[simp] theorem State.setSlot_fault (s : State) (k : Fin Config.stackDepth) (w : Word) : (s.setSlot k w).fault = s.fault := rfl
@[simp] theorem State.setSlot_programStart (s : State) (k : Fin Config.stackDepth) (w : Word) : (s.setSlot k w).programStart = s.programStart := rfl
@[simp] theorem State.setSlot_outcome (s : State) (k : Fin Config.stackDepth) (w : Word) : (s.setSlot k w).outcome = s.outcome := rfl
@[simp] theorem State.setSlot_rnd (s : State) (k : Fin Config.stackDepth) (w : Word) : (s.setSlot k w).rnd = s.rnd := rfl
@[simp] theorem State.setSlot_draws (s : State) (k : Fin Config.stackDepth) (w : Word) : (s.setSlot k w).draws = s.draws := rfl
@[simp] theorem State.setSlot_schedule (s : State) (k : Fin Config.stackDepth) (w : Word) : (s.setSlot k w).schedule = s.schedule := rfl
@[simp] theorem State.setSlot_readV (s : State) (k : Fin Config.stackDepth) (w : Word) (y : RegIdx) : (s.setSlot k w).readV y = s.readV y := rfl

/-! ### setSp -/

@[simp] theorem State.setSp_v (s : State) (n : Fin (Config.stackDepth + 1)) : (s.setSp n).v = s.v := rfl
@[simp] theorem State.setSp_i (s : State) (n : Fin (Config.stackDepth + 1)) : (s.setSp n).i = s.i := rfl
@[simp] theorem State.setSp_pc (s : State) (n : Fin (Config.stackDepth + 1)) : (s.setSp n).pc = s.pc := rfl
@[simp] theorem State.setSp_stack (s : State) (n : Fin (Config.stackDepth + 1)) : (s.setSp n).stack = s.stack := rfl
@[simp] theorem State.setSp_sp (s : State) (n : Fin (Config.stackDepth + 1)) : (s.setSp n).sp = n := rfl
@[simp] theorem State.setSp_dt (s : State) (n : Fin (Config.stackDepth + 1)) : (s.setSp n).dt = s.dt := rfl
@[simp] theorem State.setSp_st (s : State) (n : Fin (Config.stackDepth + 1)) : (s.setSp n).st = s.st := rfl
@[simp] theorem State.setSp_mem (s : State) (n : Fin (Config.stackDepth + 1)) : (s.setSp n).mem = s.mem := rfl
@[simp] theorem State.setSp_fault (s : State) (n : Fin (Config.stackDepth + 1)) : (s.setSp n).fault = s.fault := rfl
@[simp] theorem State.setSp_programStart (s : State) (n : Fin (Config.stackDepth + 1)) : (s.setSp n).programStart = s.programStart := rfl
@[simp] theorem State.setSp_outcome (s : State) (n : Fin (Config.stackDepth + 1)) : (s.setSp n).outcome = s.outcome := rfl
@[simp] theorem State.setSp_rnd (s : State) (n : Fin (Config.stackDepth + 1)) : (s.setSp n).rnd = s.rnd := rfl
@[simp] theorem State.setSp_draws (s : State) (n : Fin (Config.stackDepth + 1)) : (s.setSp n).draws = s.draws := rfl
@[simp] theorem State.setSp_schedule (s : State) (n : Fin (Config.stackDepth + 1)) : (s.setSp n).schedule = s.schedule := rfl
@[simp] theorem State.setSp_readV (s : State) (n : Fin (Config.stackDepth + 1)) (y : RegIdx) : (s.setSp n).readV y = s.readV y := rfl

/-! ### setDt -/

@[simp] theorem State.setDt_v (s : State) (b : Byte) : (s.setDt b).v = s.v := rfl
@[simp] theorem State.setDt_i (s : State) (b : Byte) : (s.setDt b).i = s.i := rfl
@[simp] theorem State.setDt_pc (s : State) (b : Byte) : (s.setDt b).pc = s.pc := rfl
@[simp] theorem State.setDt_stack (s : State) (b : Byte) : (s.setDt b).stack = s.stack := rfl
@[simp] theorem State.setDt_sp (s : State) (b : Byte) : (s.setDt b).sp = s.sp := rfl
@[simp] theorem State.setDt_dt (s : State) (b : Byte) : (s.setDt b).dt = b := rfl
@[simp] theorem State.setDt_st (s : State) (b : Byte) : (s.setDt b).st = s.st := rfl
@[simp] theorem State.setDt_mem (s : State) (b : Byte) : (s.setDt b).mem = s.mem := rfl
@[simp] theorem State.setDt_fault (s : State) (b : Byte) : (s.setDt b).fault = s.fault := rfl
@[simp] theorem State.setDt_programStart (s : State) (b : Byte) : (s.setDt b).programStart = s.programStart := rfl
@[simp] theorem State.setDt_outcome (s : State) (b : Byte) : (s.setDt b).outcome = s.outcome := rfl
@[simp] theorem State.setDt_rnd (s : State) (b : Byte) : (s.setDt b).rnd = s.rnd := rfl
@[simp] theorem State.setDt_draws (s : State) (b : Byte) : (s.setDt b).draws = s.draws := rfl
@[simp] theorem State.setDt_schedule (s : State) (b : Byte) : (s.setDt b).schedule = s.schedule := rfl
@[simp] theorem State.setDt_readV (s : State) (b : Byte) (y : RegIdx) : (s.setDt b).readV y = s.readV y := rfl

/-! ### setSt -/

@[simp] theorem State.setSt_v (s : State) (b : Byte) : (s.setSt b).v = s.v := rfl
@[simp] theorem State.setSt_i (s : State) (b : Byte) : (s.setSt b).i = s.i := rfl
@[simp] theorem State.setSt_pc (s : State) (b : Byte) : (s.setSt b).pc = s.pc := rfl
@[simp] theorem State.setSt_stack (s : State) (b : Byte) : (s.setSt b).stack = s.stack := rfl
@[simp] theorem State.setSt_sp (s : State) (b : Byte) : (s.setSt b).sp = s.sp := rfl
@[simp] theorem State.setSt_dt (s : State) (b : Byte) : (s.setSt b).dt = s.dt := rfl
@[simp] theorem State.setSt_st (s : State) (b : Byte) : (s.setSt b).st = b := rfl
@[simp] theorem State.setSt_mem (s : State) (b : Byte) : (s.setSt b).mem = s.mem := rfl
@[simp] theorem State.setSt_fault (s : State) (b : Byte) : (s.setSt b).fault = s.fault := rfl
@[simp] theorem State.setSt_programStart (s : State) (b : Byte) : (s.setSt b).programStart = s.programStart := rfl
@[simp] theorem State.setSt_outcome (s : State) (b : Byte) : (s.setSt b).outcome = s.outcome := rfl
@[simp] theorem State.setSt_rnd (s : State) (b : Byte) : (s.setSt b).rnd = s.rnd := rfl
@[simp] theorem State.setSt_draws (s : State) (b : Byte) : (s.setSt b).draws = s.draws := rfl
@[simp] theorem State.setSt_schedule (s : State) (b : Byte) : (s.setSt b).schedule = s.schedule := rfl
@[simp] theorem State.setSt_readV (s : State) (b : Byte) (y : RegIdx) : (s.setSt b).readV y = s.readV y := rfl

/-! ### setMem -/

@[simp] theorem State.setMem_v (s : State) (m : Memory) : (s.setMem m).v = s.v := rfl
@[simp] theorem State.setMem_i (s : State) (m : Memory) : (s.setMem m).i = s.i := rfl
@[simp] theorem State.setMem_pc (s : State) (m : Memory) : (s.setMem m).pc = s.pc := rfl
@[simp] theorem State.setMem_stack (s : State) (m : Memory) : (s.setMem m).stack = s.stack := rfl
@[simp] theorem State.setMem_sp (s : State) (m : Memory) : (s.setMem m).sp = s.sp := rfl
@[simp] theorem State.setMem_dt (s : State) (m : Memory) : (s.setMem m).dt = s.dt := rfl
@[simp] theorem State.setMem_st (s : State) (m : Memory) : (s.setMem m).st = s.st := rfl
@[simp] theorem State.setMem_mem (s : State) (m : Memory) : (s.setMem m).mem = m := rfl
@[simp] theorem State.setMem_fault (s : State) (m : Memory) : (s.setMem m).fault = s.fault := rfl
@[simp] theorem State.setMem_programStart (s : State) (m : Memory) : (s.setMem m).programStart = s.programStart := rfl
@[simp] theorem State.setMem_outcome (s : State) (m : Memory) : (s.setMem m).outcome = s.outcome := rfl
@[simp] theorem State.setMem_rnd (s : State) (m : Memory) : (s.setMem m).rnd = s.rnd := rfl
@[simp] theorem State.setMem_draws (s : State) (m : Memory) : (s.setMem m).draws = s.draws := rfl
@[simp] theorem State.setMem_schedule (s : State) (m : Memory) : (s.setMem m).schedule = s.schedule := rfl
@[simp] theorem State.setMem_readV (s : State) (m : Memory) (y : RegIdx) : (s.setMem m).readV y = s.readV y := rfl

/-! ### latch -/

@[simp] theorem State.latch_v (s : State) (c : Cause) : (s.latch c).v = s.v := rfl
@[simp] theorem State.latch_i (s : State) (c : Cause) : (s.latch c).i = s.i := rfl
@[simp] theorem State.latch_pc (s : State) (c : Cause) : (s.latch c).pc = s.pc := rfl
@[simp] theorem State.latch_stack (s : State) (c : Cause) : (s.latch c).stack = s.stack := rfl
@[simp] theorem State.latch_sp (s : State) (c : Cause) : (s.latch c).sp = s.sp := rfl
@[simp] theorem State.latch_dt (s : State) (c : Cause) : (s.latch c).dt = s.dt := rfl
@[simp] theorem State.latch_st (s : State) (c : Cause) : (s.latch c).st = s.st := rfl
@[simp] theorem State.latch_mem (s : State) (c : Cause) : (s.latch c).mem = s.mem := rfl
@[simp] theorem State.latch_fault (s : State) (c : Cause) : (s.latch c).fault = some c := rfl
@[simp] theorem State.latch_programStart (s : State) (c : Cause) : (s.latch c).programStart = s.programStart := rfl
@[simp] theorem State.latch_outcome (s : State) (c : Cause) : (s.latch c).outcome = s.outcome := rfl
@[simp] theorem State.latch_rnd (s : State) (c : Cause) : (s.latch c).rnd = s.rnd := rfl
@[simp] theorem State.latch_draws (s : State) (c : Cause) : (s.latch c).draws = s.draws := rfl
@[simp] theorem State.latch_schedule (s : State) (c : Cause) : (s.latch c).schedule = s.schedule := rfl
@[simp] theorem State.latch_readV (s : State) (c : Cause) (y : RegIdx) : (s.latch c).readV y = s.readV y := rfl

/-! ### report -/

@[simp] theorem State.report_v (s : State) (r : Report) : (s.report r).v = s.v := rfl
@[simp] theorem State.report_i (s : State) (r : Report) : (s.report r).i = s.i := rfl
@[simp] theorem State.report_pc (s : State) (r : Report) : (s.report r).pc = s.pc := rfl
@[simp] theorem State.report_stack (s : State) (r : Report) : (s.report r).stack = s.stack := rfl
@[simp] theorem State.report_sp (s : State) (r : Report) : (s.report r).sp = s.sp := rfl
@[simp] theorem State.report_dt (s : State) (r : Report) : (s.report r).dt = s.dt := rfl
@[simp] theorem State.report_st (s : State) (r : Report) : (s.report r).st = s.st := rfl
@[simp] theorem State.report_mem (s : State) (r : Report) : (s.report r).mem = s.mem := rfl
@[simp] theorem State.report_fault (s : State) (r : Report) : (s.report r).fault = s.fault := rfl
@[simp] theorem State.report_programStart (s : State) (r : Report) : (s.report r).programStart = s.programStart := rfl
@[simp] theorem State.report_outcome (s : State) (r : Report) : (s.report r).outcome = some r := rfl
@[simp] theorem State.report_rnd (s : State) (r : Report) : (s.report r).rnd = s.rnd := rfl
@[simp] theorem State.report_draws (s : State) (r : Report) : (s.report r).draws = s.draws := rfl
@[simp] theorem State.report_schedule (s : State) (r : Report) : (s.report r).schedule = s.schedule := rfl
@[simp] theorem State.report_readV (s : State) (r : Report) (y : RegIdx) : (s.report r).readV y = s.readV y := rfl

/-! ### noReport -/

@[simp] theorem State.noReport_v (s : State) : (s.noReport).v = s.v := rfl
@[simp] theorem State.noReport_i (s : State) : (s.noReport).i = s.i := rfl
@[simp] theorem State.noReport_pc (s : State) : (s.noReport).pc = s.pc := rfl
@[simp] theorem State.noReport_stack (s : State) : (s.noReport).stack = s.stack := rfl
@[simp] theorem State.noReport_sp (s : State) : (s.noReport).sp = s.sp := rfl
@[simp] theorem State.noReport_dt (s : State) : (s.noReport).dt = s.dt := rfl
@[simp] theorem State.noReport_st (s : State) : (s.noReport).st = s.st := rfl
@[simp] theorem State.noReport_mem (s : State) : (s.noReport).mem = s.mem := rfl
@[simp] theorem State.noReport_fault (s : State) : (s.noReport).fault = s.fault := rfl
@[simp] theorem State.noReport_programStart (s : State) : (s.noReport).programStart = s.programStart := rfl
@[simp] theorem State.noReport_outcome (s : State) : (s.noReport).outcome = none := rfl
@[simp] theorem State.noReport_rnd (s : State) : (s.noReport).rnd = s.rnd := rfl
@[simp] theorem State.noReport_draws (s : State) : (s.noReport).draws = s.draws := rfl
@[simp] theorem State.noReport_schedule (s : State) : (s.noReport).schedule = s.schedule := rfl
@[simp] theorem State.noReport_readV (s : State) (y : RegIdx) : (s.noReport).readV y = s.readV y := rfl

/-! ### setRnd -/

@[simp] theorem State.setRnd_v (s : State) (b : Byte) : (s.setRnd b).v = s.v := rfl
@[simp] theorem State.setRnd_i (s : State) (b : Byte) : (s.setRnd b).i = s.i := rfl
@[simp] theorem State.setRnd_pc (s : State) (b : Byte) : (s.setRnd b).pc = s.pc := rfl
@[simp] theorem State.setRnd_stack (s : State) (b : Byte) : (s.setRnd b).stack = s.stack := rfl
@[simp] theorem State.setRnd_sp (s : State) (b : Byte) : (s.setRnd b).sp = s.sp := rfl
@[simp] theorem State.setRnd_dt (s : State) (b : Byte) : (s.setRnd b).dt = s.dt := rfl
@[simp] theorem State.setRnd_st (s : State) (b : Byte) : (s.setRnd b).st = s.st := rfl
@[simp] theorem State.setRnd_mem (s : State) (b : Byte) : (s.setRnd b).mem = s.mem := rfl
@[simp] theorem State.setRnd_fault (s : State) (b : Byte) : (s.setRnd b).fault = s.fault := rfl
@[simp] theorem State.setRnd_programStart (s : State) (b : Byte) : (s.setRnd b).programStart = s.programStart := rfl
@[simp] theorem State.setRnd_outcome (s : State) (b : Byte) : (s.setRnd b).outcome = s.outcome := rfl
@[simp] theorem State.setRnd_rnd (s : State) (b : Byte) : (s.setRnd b).rnd = b := rfl
@[simp] theorem State.setRnd_draws (s : State) (b : Byte) : (s.setRnd b).draws = s.draws := rfl
@[simp] theorem State.setRnd_schedule (s : State) (b : Byte) : (s.setRnd b).schedule = s.schedule := rfl
@[simp] theorem State.setRnd_readV (s : State) (b : Byte) (y : RegIdx) : (s.setRnd b).readV y = s.readV y := rfl

/-! ### countDraw -/

@[simp] theorem State.countDraw_v (s : State) : (s.countDraw).v = s.v := rfl
@[simp] theorem State.countDraw_i (s : State) : (s.countDraw).i = s.i := rfl
@[simp] theorem State.countDraw_pc (s : State) : (s.countDraw).pc = s.pc := rfl
@[simp] theorem State.countDraw_stack (s : State) : (s.countDraw).stack = s.stack := rfl
@[simp] theorem State.countDraw_sp (s : State) : (s.countDraw).sp = s.sp := rfl
@[simp] theorem State.countDraw_dt (s : State) : (s.countDraw).dt = s.dt := rfl
@[simp] theorem State.countDraw_st (s : State) : (s.countDraw).st = s.st := rfl
@[simp] theorem State.countDraw_mem (s : State) : (s.countDraw).mem = s.mem := rfl
@[simp] theorem State.countDraw_fault (s : State) : (s.countDraw).fault = s.fault := rfl
@[simp] theorem State.countDraw_programStart (s : State) : (s.countDraw).programStart = s.programStart := rfl
@[simp] theorem State.countDraw_outcome (s : State) : (s.countDraw).outcome = s.outcome := rfl
@[simp] theorem State.countDraw_rnd (s : State) : (s.countDraw).rnd = s.rnd := rfl
@[simp] theorem State.countDraw_draws (s : State) : (s.countDraw).draws = s.draws + 1 := rfl
@[simp] theorem State.countDraw_schedule (s : State) : (s.countDraw).schedule = s.schedule := rfl
@[simp] theorem State.countDraw_readV (s : State) (y : RegIdx) : (s.countDraw).readV y = s.readV y := rfl

/-! ### setSchedule -/

@[simp] theorem State.setSchedule_v (s : State) (q : List Request) : (s.setSchedule q).v = s.v := rfl
@[simp] theorem State.setSchedule_i (s : State) (q : List Request) : (s.setSchedule q).i = s.i := rfl
@[simp] theorem State.setSchedule_pc (s : State) (q : List Request) : (s.setSchedule q).pc = s.pc := rfl
@[simp] theorem State.setSchedule_stack (s : State) (q : List Request) : (s.setSchedule q).stack = s.stack := rfl
@[simp] theorem State.setSchedule_sp (s : State) (q : List Request) : (s.setSchedule q).sp = s.sp := rfl
@[simp] theorem State.setSchedule_dt (s : State) (q : List Request) : (s.setSchedule q).dt = s.dt := rfl
@[simp] theorem State.setSchedule_st (s : State) (q : List Request) : (s.setSchedule q).st = s.st := rfl
@[simp] theorem State.setSchedule_mem (s : State) (q : List Request) : (s.setSchedule q).mem = s.mem := rfl
@[simp] theorem State.setSchedule_fault (s : State) (q : List Request) : (s.setSchedule q).fault = s.fault := rfl
@[simp] theorem State.setSchedule_programStart (s : State) (q : List Request) : (s.setSchedule q).programStart = s.programStart := rfl
@[simp] theorem State.setSchedule_outcome (s : State) (q : List Request) : (s.setSchedule q).outcome = s.outcome := rfl
@[simp] theorem State.setSchedule_rnd (s : State) (q : List Request) : (s.setSchedule q).rnd = s.rnd := rfl
@[simp] theorem State.setSchedule_draws (s : State) (q : List Request) : (s.setSchedule q).draws = s.draws := rfl
@[simp] theorem State.setSchedule_schedule (s : State) (q : List Request) : (s.setSchedule q).schedule = q := rfl
@[simp] theorem State.setSchedule_readV (s : State) (q : List Request) (y : RegIdx) : (s.setSchedule q).readV y = s.readV y := rfl

/-! ### Registers -/

@[simp] theorem State.readV_writeV_same (s : State) (x : RegIdx) (b : Byte) : (s.writeV x b).readV x = b := by
  simp [State.readV, State.writeV]

@[simp] theorem State.readV_writeV_other (s : State) (x y : RegIdx) (b : Byte) (h : y ≠ x) :
    (s.writeV x b).readV y = s.readV y := by
  have : x.toNat ≠ y.toNat := fun e => h (BitVec.eq_of_toNat_eq e.symm)
  simp [State.readV, State.writeV, this]

/-- A register read after a write (rule R12). -/
theorem State.readV_writeV (s : State) (x y : RegIdx) (b : Byte) :
    (s.writeV x b).readV y = if y = x then b else s.readV y := by
  by_cases h : y = x
  · subst h; simp
  · simp [h]

/-- Two register files that read alike are the same. -/
theorem State.v_ext_readV (s t : State) (h : ∀ x : RegIdx, s.readV x = t.readV x) : s.v = t.v := by
  apply Vector.ext
  intro k hk
  have := h (BitVec.ofNat 4 k)
  simpa [State.readV, Nat.mod_eq_of_lt hk] using this

/-- A write to a register changes the register file only. -/
theorem State.writeV_eq (s : State) (x : RegIdx) (b : Byte) : s.writeV x b = { s with v := (s.writeV x b).v } := rfl

end Sys2Proof.Machine
end

