-- ==== Sys2Proof/Laws/Memory.lean ====
section
/-! SUPPORT. The laws of memory: a read after a write, and the canonical form kept by every memory operation. -/

namespace Sys2Proof.Machine

/-! ### A read after a write -/

theorem Memory.readByte_erase_same (m : Memory) (a : Nat) : Memory.readByte (Memory.erase m a) a = 0x00#8 := by
  induction m with
  | nil => rfl
  | cons c rest ih =>
    unfold Memory.erase at *
    by_cases h : c.1 = a
    · simpa [h] using ih
    · simpa [h, Memory.readByte] using ih

theorem Memory.readByte_erase_other (m : Memory) (a k : Nat) (h : k ≠ a) :
    Memory.readByte (Memory.erase m a) k = Memory.readByte m k := by
  induction m with
  | nil => rfl
  | cons c rest ih =>
    unfold Memory.erase at *
    by_cases hc : c.1 = a
    · simpa [hc, Memory.readByte, Ne.symm h] using ih
    · simp [hc, Memory.readByte, ih]

theorem Memory.readByte_insertCell_same (m : Memory) (a : Nat) (b : Byte) (h : ∀ c ∈ m, c.1 ≠ a) :
    Memory.readByte (Memory.insertCell a b m) a = b := by
  induction m with
  | nil => simp [Memory.insertCell, Memory.readByte]
  | cons c rest ih =>
    unfold Memory.insertCell
    split
    · simp [Memory.readByte]
    · simp [Memory.readByte, h c (by simp), ih (fun d hd => h d (by simp [hd]))]

theorem Memory.readByte_insertCell_other (m : Memory) (a k : Nat) (b : Byte) (h : k ≠ a) :
    Memory.readByte (Memory.insertCell a b m) k = Memory.readByte m k := by
  induction m with
  | nil => simp [Memory.insertCell, Memory.readByte, Ne.symm h]
  | cons c rest ih =>
    unfold Memory.insertCell
    split
    · simp [Memory.readByte, Ne.symm h]
    · simp [Memory.readByte, ih]

theorem Memory.erase_ne (m : Memory) (a : Nat) : ∀ c ∈ Memory.erase m a, c.1 ≠ a := by
  intro c hc
  simpa using (List.mem_filter.1 hc).2

/-- A write is read back (rules R31, R32, R41). -/
@[simp] theorem Memory.readByte_writeByte_same (m : Memory) (a : Nat) (b : Byte) :
    Memory.readByte (Memory.writeByte m a b) a = b := by
  unfold Memory.writeByte
  split
  · simp [Memory.readByte_erase_same, *]
  · exact Memory.readByte_insertCell_same _ _ _ (Memory.erase_ne m a)

/-- A write changes exactly one byte (rule R32). -/
@[simp] theorem Memory.readByte_writeByte_other (m : Memory) (a k : Nat) (b : Byte) (h : k ≠ a) :
    Memory.readByte (Memory.writeByte m a b) k = Memory.readByte m k := by
  unfold Memory.writeByte
  split
  · exact Memory.readByte_erase_other m a k h
  · rw [Memory.readByte_insertCell_other _ _ _ _ h, Memory.readByte_erase_other _ _ _ h]

/-- What an address reads as after several bytes are stored: its byte inside the range, what it held before outside. -/
theorem Memory.readByte_writeBytes (m : Memory) (a k : Nat) (bs : List Byte) :
    Memory.readByte (Memory.writeBytes m a bs) k
      = if h : a ≤ k ∧ k < a + bs.length then bs[k - a]'(by omega) else Memory.readByte m k := by
  induction bs generalizing m a with
  | nil => simp [Memory.writeBytes, show ¬(a ≤ k ∧ k < a) by omega]
  | cons b bs ih =>
    rw [Memory.writeBytes, ih]
    by_cases hk : k = a
    · subst hk; simp
    · by_cases h : a + 1 ≤ k ∧ k < a + 1 + bs.length
      · have h' : a ≤ k ∧ k < a + (b :: bs).length := by simp only [List.length_cons]; omega
        obtain ⟨j, rfl⟩ : ∃ j, k = a + 1 + j := ⟨k - (a + 1), by omega⟩
        have e : a + 1 + j - a = j + 1 := by omega
        simp only [h, h', and_self, dite_true, e, List.getElem_cons_succ]
        congr 1
        omega
      · have h' : ¬(a ≤ k ∧ k < a + (b :: bs).length) := by simp only [List.length_cons]; omega
        simp only [h, h', dite_false]
        exact Memory.readByte_writeByte_other m a k b hk

@[simp] theorem Memory.length_readBytes (m : Memory) (a n : Nat) : (Memory.readBytes m a n).length = n := by
  induction n generalizing a with
  | zero => rfl
  | succ n ih => simp [Memory.readBytes, ih]

theorem Memory.getElem_readBytes (m : Memory) (a n k : Nat) (h : k < (Memory.readBytes m a n).length) :
    (Memory.readBytes m a n)[k] = Memory.readByte m (a + k) := by
  induction n generalizing a k with
  | zero => simp [Memory.readBytes] at h
  | succ n ih =>
    cases k with
    | zero => rfl
    | succ k =>
      have := ih (a + 1) k (by simpa [Memory.readBytes] using h)
      simp only [Memory.readBytes, List.getElem_cons_succ, this]
      congr 1
      omega

/-! ### The canonical form -/

theorem Memory.wf_nil : Memory.wf [] := by simp [Memory.wf]

theorem Memory.erase_wf (m : Memory) (a : Nat) (h : Memory.wf m) : Memory.wf (Memory.erase m a) :=
  ⟨h.1.filter _, fun c hc => h.2 c (List.mem_filter.1 hc).1⟩

theorem Memory.mem_insertCell (m : Memory) (a : Nat) (b : Byte) (c : Host.Cell) :
    c ∈ Memory.insertCell a b m ↔ c = (a, b) ∨ c ∈ m := by
  induction m with
  | nil => simp [Memory.insertCell]
  | cons d rest ih =>
    unfold Memory.insertCell
    split
    · simp
    · simp only [List.mem_cons, ih]; tauto

theorem Memory.insertCell_sorted (m : Memory) (a : Nat) (b : Byte)
    (h : List.Pairwise (fun c d => c.1 < d.1) m) (ha : ∀ c ∈ m, c.1 ≠ a) :
    List.Pairwise (fun c d => c.1 < d.1) (Memory.insertCell a b m) := by
  induction m with
  | nil => simp [Memory.insertCell]
  | cons c rest ih =>
    unfold Memory.insertCell
    rw [List.pairwise_cons] at h
    split
    · next hlt =>
      refine List.pairwise_cons.2 ⟨?_, List.pairwise_cons.2 h⟩
      intro d hd
      rcases List.mem_cons.1 hd with rfl | hd
      · exact hlt
      · exact Nat.lt_trans hlt (h.1 d hd)
    · next hle =>
      refine List.pairwise_cons.2 ⟨?_, ih h.2 (fun d hd => ha d (List.mem_cons_of_mem _ hd))⟩
      intro d hd
      rcases (Memory.mem_insertCell rest a b d).1 hd with rfl | hd
      · exact Nat.lt_of_le_of_ne (Nat.le_of_not_lt hle) (ha c List.mem_cons_self)
      · exact h.1 d hd

/-- A write inside memory keeps the canonical form. -/
theorem Memory.writeByte_wf (m : Memory) (a : Nat) (b : Byte) (h : Memory.wf m) (ha : a < Config.memSize) :
    Memory.wf (Memory.writeByte m a b) := by
  unfold Memory.writeByte
  split
  · exact Memory.erase_wf m a h
  · next hb =>
    have he := Memory.erase_wf m a h
    refine ⟨Memory.insertCell_sorted _ _ _ he.1 (Memory.erase_ne m a), fun c hc => ?_⟩
    rcases (Memory.mem_insertCell _ _ _ _).1 hc with rfl | hc
    · exact ⟨ha, hb⟩
    · exact he.2 c hc

/-- A store of several bytes inside memory keeps the canonical form. -/
theorem Memory.writeBytes_wf (m : Memory) (a : Nat) (bs : List Byte) (h : Memory.wf m)
    (hr : a + bs.length ≤ Config.memSize) : Memory.wf (Memory.writeBytes m a bs) := by
  induction bs generalizing m a with
  | nil => exact h
  | cons b bs ih =>
    simp only [List.length_cons] at hr
    exact ih _ _ (Memory.writeByte_wf m a b h (by omega)) (by omega)

/-- An entry listed in canonical memory is what its address reads as. -/
theorem Memory.readByte_of_mem (m : Memory) (h : Memory.wf m) (c : Host.Cell) (hc : c ∈ m) :
    Memory.readByte m c.1 = c.2 := by
  induction m with
  | nil => simp at hc
  | cons d rest ih =>
    have h1 := List.pairwise_cons.1 h.1
    rcases List.mem_cons.1 hc with rfl | hc
    · simp [Memory.readByte]
    · have hne : d.1 ≠ c.1 := Nat.ne_of_lt (h1.1 c hc)
      simpa [Memory.readByte, hne] using ih ⟨h1.2, fun e he => h.2 e (List.mem_cons_of_mem _ he)⟩ hc

/-- A byte that is not 0x00 is listed. -/
theorem Memory.mem_of_readByte (m : Memory) (a : Nat) (h : Memory.readByte m a ≠ 0x00#8) :
    (a, Memory.readByte m a) ∈ m := by
  induction m with
  | nil => exact absurd rfl h
  | cons d rest ih =>
    obtain ⟨k, b⟩ := d
    by_cases hd : k = a
    · subst hd; simp [Memory.readByte]
    · simp only [Memory.readByte, hd, if_false] at h ⊢
      exact List.mem_cons_of_mem _ (ih h)

/-- Memories in canonical form that read alike everywhere are the same data. -/
theorem Memory.ext_readByte (m n : Memory) (hm : Memory.wf m) (hn : Memory.wf n)
    (h : ∀ a, Memory.readByte m a = Memory.readByte n a) : m = n := by
  have sub : ∀ p q : Memory, Memory.wf p → (∀ a, Memory.readByte p a = Memory.readByte q a) → ∀ c ∈ p, c ∈ q := by
    intro p q hp e c hc
    have hr := Memory.readByte_of_mem p hp c hc
    have hq : Memory.readByte q c.1 = c.2 := (e c.1).symm.trans hr
    have := Memory.mem_of_readByte q c.1 (by rw [hq]; exact (hp.2 c hc).2)
    rwa [hq] at this
  have nodup : ∀ p : Memory, Memory.wf p → p.Nodup := fun p hp =>
    hp.1.imp (fun {c d} (hlt : c.1 < d.1) e => absurd (congrArg Prod.fst e) (Nat.ne_of_lt hlt))
  have perm : m.Perm n := (List.perm_ext_iff_of_nodup (nodup m hm) (nodup n hn)).2
    (fun c => ⟨sub m n hm h c, sub n m hn (fun a => (h a).symm) c⟩)
  refine perm.eq_of_pairwise (le := fun c d => c.1 < d.1) ?_ hm.1 hn.1
  intro c d _ _ h1 h2
  omega

end Sys2Proof.Machine
end

