-- ==== Sys2Proof/Laws/Ops.lean ====
section
/-! SUPPORT. One lemma per shared operation that says once everything it can do; proofs cite these and do not unfold. -/

namespace Sys2Proof.Machine

/-! ### Memory accesses -/

theorem State.memRead_eq_some (s : State) (a : Nat) (b : Byte) :
    s.memRead a = some b ↔ a < Config.memSize ∧ Memory.readByte s.mem a = b := by
  unfold State.memRead
  split <;> simp [*]

theorem State.memRead_eq_none (s : State) (a : Nat) : s.memRead a = none ↔ Config.memSize ≤ a := by
  unfold State.memRead
  split
  · simp; omega
  · simp; omega

theorem State.memWrite_eq_some (s t : State) (a : Nat) (b : Byte) :
    s.memWrite a b = some t ↔ a < Config.memSize ∧ t = s.setMem (Memory.writeByte s.mem a b) := by
  unfold State.memWrite
  split <;> simp [*, eq_comm]

theorem rangeFits_iff (a n : Nat) : rangeFits a n = true ↔ a + n ≤ Config.memSize := by
  simp [rangeFits]

theorem State.memReadRange_eq_some (s : State) (a n : Nat) (bs : List Byte) :
    s.memReadRange a n = some bs ↔ a + n ≤ Config.memSize ∧ bs = Memory.readBytes s.mem a n := by
  unfold State.memReadRange
  split
  · next h => simp [(rangeFits_iff a n).1 h, eq_comm]
  · next h => simp [mt (rangeFits_iff a n).2 h]

theorem State.memReadRange_eq_none (s : State) (a n : Nat) :
    s.memReadRange a n = none ↔ Config.memSize < a + n := by
  unfold State.memReadRange
  split
  · next h => have := (rangeFits_iff a n).1 h; simp; omega
  · next h => have := mt (rangeFits_iff a n).2 h; simp; omega

theorem State.memWriteRange_eq_some (s t : State) (a : Nat) (bs : List Byte) :
    s.memWriteRange a bs = some t
      ↔ a + bs.length ≤ Config.memSize ∧ t = s.setMem (Memory.writeBytes s.mem a bs) := by
  unfold State.memWriteRange
  split
  · next h => simp [(rangeFits_iff a bs.length).1 h, eq_comm]
  · next h => simp [mt (rangeFits_iff a bs.length).2 h]

theorem State.memWriteRange_eq_none (s : State) (a : Nat) (bs : List Byte) :
    s.memWriteRange a bs = none ↔ Config.memSize < a + bs.length := by
  unfold State.memWriteRange
  split
  · next h => have := (rangeFits_iff a bs.length).1 h; simp; omega
  · next h => have := mt (rangeFits_iff a bs.length).2 h; simp; omega

/-- The fetch succeeds exactly when pc and pc + 1 lie inside memory (rule R71). -/
theorem State.fetchWord_eq_some (s : State) (w : Word) :
    s.fetchWord = some w ↔ s.pc.toNat + 1 < Config.memSize
      ∧ w = wordOfBytes (Memory.readByte s.mem s.pc.toNat) (Memory.readByte s.mem (s.pc.toNat + 1)) := by
  unfold State.fetchWord State.memRead
  by_cases h1 : s.pc.toNat + 1 < Config.memSize
  · have h0 : s.pc.toNat < Config.memSize := by omega
    simp [h0, h1, eq_comm]
  · simp [h1]

theorem State.fetchWord_eq_none (s : State) : s.fetchWord = none ↔ Config.memSize ≤ s.pc.toNat + 1 := by
  unfold State.fetchWord State.memRead
  by_cases h1 : s.pc.toNat + 1 < Config.memSize
  · have h0 : s.pc.toNat < Config.memSize := by omega
    simp [h0, h1]
  · simp [h1]; omega

/-! ### Registers in a row -/

@[simp] theorem State.length_readRegs (s : State) (k n : Nat) : (s.readRegs k n).length = n := by
  induction n generalizing k with
  | zero => rfl
  | succ n ih => simp [State.readRegs, ih]

theorem State.getElem_readRegs (s : State) (k n j : Nat) (h : j < (s.readRegs k n).length) :
    (s.readRegs k n)[j] = s.readV (BitVec.ofNat 4 (k + j)) := by
  induction n generalizing k j with
  | zero => simp [State.readRegs] at h
  | succ n ih =>
    cases j with
    | zero => rfl
    | succ j =>
      have := ih (k + 1) j (by simpa [State.readRegs] using h)
      simp only [State.readRegs, List.getElem_cons_succ, this]
      congr 2
      omega

/-- Writing registers in a row changes the register file only. -/
theorem State.writeRegs_eq (s : State) (k : Nat) (bs : List Byte) :
    s.writeRegs k bs = { s with v := (s.writeRegs k bs).v } := by
  induction bs generalizing s k with
  | nil => rfl
  | cons b bs ih => rw [State.writeRegs, ih]; rfl

/-- What a register holds after registers in a row are written: its byte inside the row, what it held before outside. -/
theorem State.readV_writeRegs (s : State) (k : Nat) (bs : List Byte) (y : RegIdx) (hk : k + bs.length ≤ 16) :
    (s.writeRegs k bs).readV y
      = if h : k ≤ y.toNat ∧ y.toNat < k + bs.length then bs[y.toNat - k]'(by omega) else s.readV y := by
  induction bs generalizing s k with
  | nil => simp [State.writeRegs, show ¬(k ≤ y.toNat ∧ y.toNat < k) by omega]
  | cons b bs ih =>
    simp only [List.length_cons] at hk
    rw [State.writeRegs, ih _ _ (by omega)]
    by_cases hy : y.toNat = k
    · have e : y = BitVec.ofNat 4 k := by apply BitVec.eq_of_toNat_eq; simp; omega
      have h1 : ¬(k + 1 ≤ y.toNat ∧ y.toNat < k + 1 + bs.length) := by omega
      have h2 : k ≤ y.toNat ∧ y.toNat < k + (b :: bs).length := by simp only [List.length_cons]; omega
      have h3 : y.toNat - k = 0 := by omega
      simp only [h1, h2, and_self, dite_true, dite_false, h3, List.getElem_cons_zero]
      rw [e]; simp
    · have e : y ≠ BitVec.ofNat 4 k := by
        intro e; apply hy; rw [e]; simp; omega
      by_cases h : k + 1 ≤ y.toNat ∧ y.toNat < k + 1 + bs.length
      · have h' : k ≤ y.toNat ∧ y.toNat < k + (b :: bs).length := by simp only [List.length_cons]; omega
        obtain ⟨j, hj⟩ : ∃ j, y.toNat = k + 1 + j := ⟨y.toNat - (k + 1), by omega⟩
        have e2 : y.toNat - k = j + 1 := by omega
        have e3 : y.toNat - (k + 1) = j := by omega
        simp only [h, h', and_self, dite_true, e2, e3, List.getElem_cons_succ]
      · have h' : ¬(k ≤ y.toNat ∧ y.toNat < k + (b :: bs).length) := by simp only [List.length_cons]; omega
        simp only [h, h', dite_false]
        exact State.readV_writeV_other s _ y b e

/-! ### The stack -/

/-- A push that succeeds writes the slot of index SP and raises SP, and nothing else (rule R17). -/
theorem State.push_eq_some (s t : State) (w : Word) :
    s.push w = some t ↔ ∃ h : s.sp.val < Config.stackDepth,
      t = { s with stack := s.stack.set s.sp.val w, sp := ⟨s.sp.val + 1, Nat.succ_lt_succ h⟩ } := by
  unfold State.push
  split
  · next h => simp [h, eq_comm, State.setSlot, State.setSp]
  · next h => simp [h]

theorem State.push_eq_none (s : State) (w : Word) : s.push w = none ↔ s.sp.val = Config.stackDepth := by
  unfold State.push
  split
  · next h => simp; omega
  · next h => simp; have := s.sp.isLt; omega

/-- A pop that succeeds answers the slot of index SP - 1 and lowers SP, and nothing else (rule R17). -/
theorem State.pop_eq_some (s t : State) (w : Word) :
    s.pop = some (w, t) ↔ ∃ n, ∃ h : n + 1 < Config.stackDepth + 1, s.sp = ⟨n + 1, h⟩
      ∧ w = s.stack[n]'(Nat.lt_of_succ_lt_succ h) ∧ t = { s with sp := ⟨n, Nat.lt_of_succ_lt h⟩ } := by
  unfold State.pop
  split
  · next h0 => simp [h0]
  · next n hn e =>
    constructor
    · rintro ⟨⟩
      exact ⟨n, hn, e, rfl, rfl⟩
    · rintro ⟨n', hn', e', rfl, rfl⟩
      rw [e] at e'
      cases e'
      rfl

theorem State.pop_eq_none (s : State) : s.pop = none ↔ s.sp.val = 0 := by
  unfold State.pop
  split
  · next h => simp [h]
  · next n hn e => simp [e]

/-! ### Skips, faults, reports -/

/-- A skip moves pc by 2 when its condition holds, and changes nothing else. -/
theorem State.skipIf_eq (s : State) (c : Bool) :
    s.skipIf c = { s with pc := if c then s.pc + 2#16 else s.pc } := by
  cases c <;> rfl

/-- A fatal fault latches its cause and reports it, and changes nothing else (rule R153). -/
theorem State.raiseFault_eq (s : State) (c : Cause) :
    s.raiseFault c = { s with fault := some c, outcome := some (.fault c) } := rfl

/-- A decode failure reports, and changes nothing else (rule R152). -/
theorem State.decodeFailure_eq (s : State) (w : Word) (cls : FailClass) :
    s.decodeFailure w cls = { s with outcome := some (.decodeFail w cls) } := rfl

/-- The end of a step reports and forgets the step's input, and changes nothing else. -/
theorem State.finishStep_eq (s : State) (w : Word) :
    s.finishStep w = { s with outcome := some (s.outcome.getD (.ok w)), rnd := 0x00#8 } := by
  unfold State.finishStep
  split
  · next h => simp [h, State.report, State.setRnd]
  · next r h => cases s; simp_all [State.setRnd]

/-! ### The flag discipline -/

/-- `resultThenFlag` changes the register file only. -/
theorem State.resultThenFlag_eq (s : State) (x y : RegIdx) (f : Byte → Byte → Byte × Bool) :
    s.resultThenFlag x y f = { s with v := (s.resultThenFlag x y f).v } := rfl

/-- `flagThenResult` changes the register file only. -/
theorem State.flagThenResult_eq (s : State) (x : RegIdx) (f : Byte → Byte × Bool) :
    s.flagThenResult x f = { s with v := (s.flagThenResult x f).v } := rfl

/-- `indexThenFlag` changes the register file and I only. -/
theorem State.indexThenFlag_eq (s : State) (x : RegIdx) :
    s.indexThenFlag x = { s with v := (s.indexThenFlag x).v, i := (s.indexThenFlag x).i } := rfl

/-- The operand a flag-writing instruction reads: 0 for VF, which phase 1 has cleared (rule R110). -/
theorem State.readV_clearFlag (s : State) (y : RegIdx) :
    s.clearFlag.readV y = if y = vF then 0x00#8 else s.readV y := State.readV_writeV s vF y _

/-- Every register after `resultThenFlag`: VF holds the flag, also when it is the destination. -/
theorem State.readV_resultThenFlag (s : State) (x y k : RegIdx) (f : Byte → Byte → Byte × Bool) :
    (s.resultThenFlag x y f).readV k =
      if k = vF then flagByte (f (s.clearFlag.readV x) (s.clearFlag.readV y)).2
      else if k = x then (f (s.clearFlag.readV x) (s.clearFlag.readV y)).1 else s.readV k := by
  simp only [State.resultThenFlag, State.setFlag, State.readV_writeV]
  by_cases h1 : k = vF
  · simp [h1]
  · by_cases h2 : k = x
    · simp [h2]
    · simp [h1, h2, State.readV_clearFlag]

/-- Every register after `flagThenResult`: Vx holds the result, also when it is VF. -/
theorem State.readV_flagThenResult (s : State) (x k : RegIdx) (f : Byte → Byte × Bool) :
    (s.flagThenResult x f).readV k =
      if k = x then (f (s.clearFlag.readV x)).1
      else if k = vF then flagByte (f (s.clearFlag.readV x)).2 else s.readV k := by
  simp only [State.flagThenResult, State.setFlag, State.readV_writeV]
  by_cases h1 : k = x
  · simp [h1]
  · by_cases h2 : k = vF
    · simp [h2]
    · simp [h1, h2, State.readV_clearFlag]

/-- Every register after `indexThenFlag`: VF holds the carry. -/
theorem State.readV_indexThenFlag (s : State) (x k : RegIdx) :
    (s.indexThenFlag x).readV k =
      if k = vF then flagByte (addIndex s.i (s.clearFlag.readV x)).2 else s.readV k := by
  simp only [State.indexThenFlag, State.setFlag, State.readV_writeV]
  by_cases h1 : k = vF
  · simp [h1, State.clearFlag]
  · simp [h1, State.readV_clearFlag]

/-! ### The step -/

/-- A step that fetches runs the decoded instruction (rules R70, R71). -/
theorem performStep_fetched (rnd : Byte) (s : State) (w : Word) (hf : s.fault = none) (hw : s.fetchWord = some w) :
    performStep rnd s = concludeStep w (exec (decodeWord w) (s.beginExecute rnd)) := by
  simp [performStep, hf, hw]

/-- A step of a faulted machine re-reports (rule R156). -/
theorem performStep_faulted (rnd : Byte) (s : State) (c : Cause) (hf : s.fault = some c) :
    performStep rnd s = .next (s.report (.fault c)) := by
  simp [performStep, hf]

/-- A step that cannot fetch raises FETCH_ADDR (rule R154). -/
theorem performStep_unfetched (rnd : Byte) (s : State) (hf : s.fault = none) (hw : s.fetchWord = none) :
    performStep rnd s = .next (s.raiseFault .fetchAddr) := by
  simp [performStep, hf, hw]

end Sys2Proof.Machine
end

