-- ==== Sys2Proof/Laws/Exec.lean ====
section
/-! SUPPORT. The instructions as equations without a match: what each answers, as a record update and a condition, so that
proofs about exec need not unfold its shared operations; and what any instruction can do to the fault latch, the report and
the model's own fields. -/

namespace Sys2Proof.Machine

/-! ### Registers in a row depend on the register file only -/

theorem State.readRegs_congr (s t : State) (h : s.v = t.v) (k n : Nat) : s.readRegs k n = t.readRegs k n := by
  induction n generalizing k with
  | zero => rfl
  | succ n ih => simp [State.readRegs, State.readV, h, ih]

theorem State.writeRegs_congr (s t : State) (h : s.v = t.v) (k : Nat) (bs : List Byte) :
    (s.writeRegs k bs).v = (t.writeRegs k bs).v := by
  induction bs generalizing s t k with
  | nil => exact h
  | cons b bs ih => exact ih _ _ (by simp [State.writeV, h]) _

/-! ### The instructions that can fault, and the skips -/

/-- RET (rule R80). -/
theorem execRet_eq (g : Byte) (s : State) : execRet g s = .next (
    if h : 0 < s.sp.val then
      { s with sp := ⟨s.sp.val - 1, by have := s.sp.isLt; omega⟩,
               pc := s.stack[s.sp.val - 1]'(by have := s.sp.isLt; omega) }
    else s.raiseFault .stackUnderflow) := by
  unfold execRet
  split
  · next hp => simp [(State.pop_eq_none s).1 hp]
  · next w t hp =>
    obtain ⟨n, hn, e, rfl, rfl⟩ := (State.pop_eq_some s t w).1 hp
    simp [e, State.setPc]

/-- CALL (rule R83). -/
theorem execCall_eq (nnn : Addr12) (s : State) : execCall nnn s = .next (
    if h : s.sp.val < Config.stackDepth then
      { s with stack := s.stack.set s.sp.val s.pc, sp := ⟨s.sp.val + 1, Nat.succ_lt_succ h⟩, pc := zext16 nnn }
    else s.raiseFault .stackOverflow) := by
  unfold execCall
  split
  · next hp => simp [(State.push_eq_none s _).1 hp]
  · next t hp =>
    obtain ⟨h, rfl⟩ := (State.push_eq_some s t _).1 hp
    simp [h, State.setPc]

/-- LD B, Vx (rule R142). -/
theorem execLdB_eq (x : RegIdx) (s : State) : execLdB x s = .next (
    if s.indexAddr + 3 ≤ Config.memSize then
      { s with mem := Memory.writeBytes s.mem s.indexAddr (bcdDigits (s.readV x)) }
    else s.raiseFault .dataAddrWrite) := by
  unfold execLdB
  split
  · next hp =>
    have h := (State.memWriteRange_eq_none s _ _).1 hp
    simp only [bcdDigits, List.length_cons, List.length_nil] at h
    rw [if_neg (by omega)]
  · next t hp =>
    obtain ⟨h, rfl⟩ := (State.memWriteRange_eq_some s t _ _).1 hp
    simp only [bcdDigits, List.length_cons, List.length_nil] at h
    rw [if_pos (by omega)]
    rfl

/-- LD [I], Vx (rule R143). -/
theorem execStoreRegs_eq (x : RegIdx) (s : State) : execStoreRegs x s = .next (
    if s.indexAddr + regCount x ≤ Config.memSize then
      { s with mem := Memory.writeBytes s.mem s.indexAddr (s.readRegs 0 (regCount x)) }
    else s.raiseFault .dataAddrWrite) := by
  unfold execStoreRegs
  split
  · next hp =>
    have h := (State.memWriteRange_eq_none s _ _).1 hp
    simp only [State.length_readRegs] at h
    rw [if_neg (by omega)]
  · next t hp =>
    obtain ⟨h, rfl⟩ := (State.memWriteRange_eq_some s t _ _).1 hp
    simp only [State.length_readRegs] at h
    rw [if_pos h]
    rfl

/-- LD Vx, [I] (rule R144). -/
theorem execLoadRegs_eq (x : RegIdx) (s : State) : execLoadRegs x s = .next (
    if s.indexAddr + regCount x ≤ Config.memSize then
      { s with v := (s.writeRegs 0 (Memory.readBytes s.mem s.indexAddr (regCount x))).v }
    else s.raiseFault .dataAddrRead) := by
  unfold execLoadRegs
  split
  · next hp =>
    have h := (State.memReadRange_eq_none s _ _).1 hp
    rw [if_neg (by omega)]
  · next bs hp =>
    obtain ⟨h, rfl⟩ := (State.memReadRange_eq_some s _ _ bs).1 hp
    rw [if_pos h, ← State.writeRegs_eq]

/-- SE Vx, nn (rule R90). -/
theorem execSeImm_eq (x : RegIdx) (nn : Byte) (s : State) :
    execSeImm x nn s = .next { s with pc := if s.readV x == nn then s.pc + 2#16 else s.pc } :=
  congrArg _ (State.skipIf_eq _ _)

/-- SNE Vx, nn (rule R91). -/
theorem execSneImm_eq (x : RegIdx) (nn : Byte) (s : State) :
    execSneImm x nn s = .next { s with pc := if s.readV x != nn then s.pc + 2#16 else s.pc } :=
  congrArg _ (State.skipIf_eq _ _)

/-- SE Vx, Vy (rule R92). -/
theorem execSeReg_eq (x y : RegIdx) (g : Nibble) (s : State) :
    execSeReg x y g s = .next { s with pc := if s.readV x == s.readV y then s.pc + 2#16 else s.pc } :=
  congrArg _ (State.skipIf_eq _ _)

/-- SNE Vx, Vy (rule R93). -/
theorem execSneReg_eq (x y : RegIdx) (g : Nibble) (s : State) :
    execSneReg x y g s = .next { s with pc := if s.readV x != s.readV y then s.pc + 2#16 else s.pc } :=
  congrArg _ (State.skipIf_eq _ _)

/-! ### What any instruction can do -/

/-- An instruction that answers a next state takes one fatal fault and does nothing else, or reports one decode failure and does
nothing else, or has an effect on the core's registers, stack and memory only. -/
theorem exec_cases (i : Instr) (s t : State) (h : exec i s = .next t) :
    (∃ c, t = s.raiseFault c) ∨ (∃ w cls, t = s.decodeFailure w cls) ∨
    t = { s with v := t.v, i := t.i, pc := t.pc, stack := t.stack, sp := t.sp, dt := t.dt, st := t.st, mem := t.mem } := by
  cases i <;> simp only [exec] at h
  case ret => rw [execRet_eq] at h; cases h; split <;> first | exact .inr (.inr rfl) | exact .inl ⟨_, rfl⟩
  case call => rw [execCall_eq] at h; cases h; split <;> first | exact .inr (.inr rfl) | exact .inl ⟨_, rfl⟩
  case ldB => rw [execLdB_eq] at h; cases h; split <;> first | exact .inr (.inr rfl) | exact .inl ⟨_, rfl⟩
  case storeRegs => rw [execStoreRegs_eq] at h; cases h; split <;> first | exact .inr (.inr rfl) | exact .inl ⟨_, rfl⟩
  case loadRegs => rw [execLoadRegs_eq] at h; cases h; split <;> first | exact .inr (.inr rfl) | exact .inl ⟨_, rfl⟩
  case seImm => rw [execSeImm_eq] at h; cases h; exact .inr (.inr rfl)
  case sneImm => rw [execSneImm_eq] at h; cases h; exact .inr (.inr rfl)
  case seReg => rw [execSeReg_eq] at h; cases h; exact .inr (.inr rfl)
  case sneReg => rw [execSneReg_eq] at h; cases h; exact .inr (.inr rfl)
  case undef8 => cases h; exact .inr (.inl ⟨_, _, rfl⟩)
  case undefD => cases h; exact .inr (.inl ⟨_, _, rfl⟩)
  case undefE => cases h; exact .inr (.inl ⟨_, _, rfl⟩)
  case undefF => cases h; exact .inr (.inl ⟨_, _, rfl⟩)
  all_goals (cases h; exact .inr (.inr rfl))

/-- No instruction touches the step's input, the count of draws, the schedule or the core's PROGRAM_START. -/
theorem exec_keeps_modelFields (i : Instr) (s t : State) (h : exec i s = .next t) :
    t.rnd = s.rnd ∧ t.draws = s.draws ∧ t.schedule = s.schedule
      ∧ t.programStart = s.programStart := by
  rcases exec_cases i s t h with ⟨c, rfl⟩ | ⟨w, cls, rfl⟩ | e
  · exact ⟨rfl, rfl, rfl, rfl⟩
  · exact ⟨rfl, rfl, rfl, rfl⟩
  · rw [e]; exact ⟨rfl, rfl, rfl, rfl⟩

/-! ### What a step is -/

/-- A step is the performing of the oldest request, or of a Step with a free draw (log 9). -/
theorem step_cases (s : State) :
    (∃ q rest, s.schedule = q :: rest ∧ step s = perform q (s.setSchedule rest)) ∨
    (s.schedule = [] ∧ step s = performStep (Config.randomByte s.draws) s.countDraw) := by
  unfold step nextOperation
  split
  · next q rest e => exact .inl ⟨q, rest, e, rfl⟩
  · next e => exact .inr ⟨e, rfl⟩

/-- A Step re-reports a latched fault, raises FETCH_ADDR, or runs the fetched word's instruction (rules R70, R157). -/
theorem performStep_cases (r : Byte) (s : State) :
    (∃ c, s.fault = some c ∧ performStep r s = .next (s.report (.fault c))) ∨
    (s.fault = none ∧ s.fetchWord = none ∧ performStep r s = .next (s.raiseFault .fetchAddr)) ∨
    (∃ w, s.fault = none ∧ s.fetchWord = some w
      ∧ performStep r s = concludeStep w (exec (decodeWord w) (s.beginExecute r))) := by
  cases hf : s.fault with
  | some c => exact .inl ⟨c, rfl, performStep_faulted r s c hf⟩
  | none =>
    cases hw : s.fetchWord with
    | none => exact .inr (.inl ⟨rfl, rfl, performStep_unfetched r s hf hw⟩)
    | some w => exact .inr (.inr ⟨w, rfl, rfl, performStep_fetched r s w hf hw⟩)

/-- A Load re-reports a latched fault, raises LOAD_RESOURCE, or copies its bytes and reports so (rules R39, R155, R156). -/
theorem State.loadOp_cases (s : State) (bytes : List Byte) (offset : Nat) :
    (∃ c, s.fault = some c ∧ s.loadOp bytes offset = s.report (.fault c)) ∨
    (s.fault = none ∧ Config.memSize < offset + bytes.length ∧ s.loadOp bytes offset = s.raiseFault .loadResource) ∨
    (s.fault = none ∧ offset + bytes.length ≤ Config.memSize
      ∧ s.loadOp bytes offset = { s with mem := Memory.writeBytes s.mem offset bytes, outcome := some .loaded }) := by
  cases hf : s.fault with
  | some c => exact .inl ⟨c, rfl, by simp [State.loadOp, hf]⟩
  | none =>
    by_cases h : offset + bytes.length ≤ Config.memSize
    · exact .inr (.inr ⟨rfl, h, by
        simp [State.loadOp, hf, (State.memWriteRange_eq_some s _ offset bytes).2 ⟨h, rfl⟩, State.report, State.setMem]⟩)
    · have hr := (State.memWriteRange_eq_none s offset bytes).2 (by omega)
      exact .inr (.inl ⟨rfl, by omega, by simp [State.loadOp, hf, hr]⟩)

/-- A Tick changes the timers and the report only (rule R163). -/
theorem State.tickOp_eq (s : State) :
    s.tickOp = { s with dt := countDown s.dt, st := countDown s.st, outcome := none } := rfl

/-- A timer after a tick, as a number (rule R163). -/
theorem countDown_toNat (b : Byte) : (countDown b).toNat = b.toNat - 1 := by
  unfold countDown
  split
  · simp [*]
  · next h =>
    have : b.toNat ≠ 0 := fun e => h (BitVec.eq_of_toNat_eq e)
    rw [BitVec.toNat_sub]
    simp
    omega

/-! ### A run of the core -/

/-- A run of one step more than `k` is the step and then the run of `k`. To be used with `M := Sys2Proof.core`. -/
theorem core_run_succ (M : Host.Core) (k : Nat) (s t : M.State) (h : M.step s = .next t) :
    M.run (k + 1) s = M.run k t := by
  rw [Host.Core.run, h]

end Sys2Proof.Machine
end

