-- ==== Sys2Proof/Laws/PerInstr.lean ====
section
/-! SUPPORT. Facts about every instruction as syntax, one lemma per constructor. -/

namespace Sys2Proof.Laws.PrimaryGroup

/-- The primary group of an instruction, from the op column of rule R54's table. -/
def group : Instr → Nibble
  | .ret _ => 0x0#4
  | .sys _ => 0x0#4
  | .jp _ => 0x1#4
  | .call _ => 0x2#4
  | .seImm _ _ => 0x3#4
  | .sneImm _ _ => 0x4#4
  | .seReg _ _ _ => 0x5#4
  | .ldImm _ _ => 0x6#4
  | .addImm _ _ => 0x7#4
  | .ldReg _ _ => 0x8#4
  | .orReg _ _ => 0x8#4
  | .andReg _ _ => 0x8#4
  | .xorReg _ _ => 0x8#4
  | .addReg _ _ => 0x8#4
  | .subReg _ _ => 0x8#4
  | .shr _ _ => 0x8#4
  | .subnReg _ _ => 0x8#4
  | .shl _ _ => 0x8#4
  | .undef8 _ => 0x8#4
  | .sneReg _ _ _ => 0x9#4
  | .ldI _ => 0xA#4
  | .jpV0 _ => 0xB#4
  | .rnd _ _ => 0xC#4
  | .undefD _ => 0xD#4
  | .undefE _ => 0xE#4
  | .ldVxDT _ => 0xF#4
  | .ldDTVx _ => 0xF#4
  | .ldSTVx _ => 0xF#4
  | .addI _ => 0xF#4
  | .ldF _ => 0xF#4
  | .ldB _ => 0xF#4
  | .storeRegs _ => 0xF#4
  | .loadRegs _ => 0xF#4
  | .undefF _ => 0xF#4

/-- The encoder puts an instruction's primary group in bits 15-12 (rules R51, R54). -/
def Statement (i : Instr) : Prop := opField (encode i) = group i

theorem ret (ignored : Byte) : Statement (.ret ignored) := by simp [Statement, group, encode]
theorem sys (nnn : Addr12) : Statement (.sys nnn) := by simp [Statement, group, encode]
theorem jp (nnn : Addr12) : Statement (.jp nnn) := by simp [Statement, group, encode]
theorem call (nnn : Addr12) : Statement (.call nnn) := by simp [Statement, group, encode]
theorem seImm (x : RegIdx) (nn : Byte) : Statement (.seImm x nn) := by simp [Statement, group, encode]
theorem sneImm (x : RegIdx) (nn : Byte) : Statement (.sneImm x nn) := by simp [Statement, group, encode]
theorem seReg (x : RegIdx) (y : RegIdx) (ignored : Nibble) : Statement (.seReg x y ignored) := by simp [Statement, group, encode]
theorem ldImm (x : RegIdx) (nn : Byte) : Statement (.ldImm x nn) := by simp [Statement, group, encode]
theorem addImm (x : RegIdx) (nn : Byte) : Statement (.addImm x nn) := by simp [Statement, group, encode]
theorem ldReg (x : RegIdx) (y : RegIdx) : Statement (.ldReg x y) := by simp [Statement, group, encode]
theorem orReg (x : RegIdx) (y : RegIdx) : Statement (.orReg x y) := by simp [Statement, group, encode]
theorem andReg (x : RegIdx) (y : RegIdx) : Statement (.andReg x y) := by simp [Statement, group, encode]
theorem xorReg (x : RegIdx) (y : RegIdx) : Statement (.xorReg x y) := by simp [Statement, group, encode]
theorem addReg (x : RegIdx) (y : RegIdx) : Statement (.addReg x y) := by simp [Statement, group, encode]
theorem subReg (x : RegIdx) (y : RegIdx) : Statement (.subReg x y) := by simp [Statement, group, encode]
theorem shr (x : RegIdx) (ignored : Nibble) : Statement (.shr x ignored) := by simp [Statement, group, encode]
theorem subnReg (x : RegIdx) (y : RegIdx) : Statement (.subnReg x y) := by simp [Statement, group, encode]
theorem shl (x : RegIdx) (ignored : Nibble) : Statement (.shl x ignored) := by simp [Statement, group, encode]
theorem undef8 (bits : Addr12) : Statement (.undef8 bits) := by simp [Statement, group, encode]
theorem sneReg (x : RegIdx) (y : RegIdx) (ignored : Nibble) : Statement (.sneReg x y ignored) := by simp [Statement, group, encode]
theorem ldI (nnn : Addr12) : Statement (.ldI nnn) := by simp [Statement, group, encode]
theorem jpV0 (nnn : Addr12) : Statement (.jpV0 nnn) := by simp [Statement, group, encode]
theorem rnd (x : RegIdx) (nn : Byte) : Statement (.rnd x nn) := by simp [Statement, group, encode]
theorem undefD (bits : Addr12) : Statement (.undefD bits) := by simp [Statement, group, encode]
theorem undefE (bits : Addr12) : Statement (.undefE bits) := by simp [Statement, group, encode]
theorem ldVxDT (x : RegIdx) : Statement (.ldVxDT x) := by simp [Statement, group, encode]
theorem ldDTVx (x : RegIdx) : Statement (.ldDTVx x) := by simp [Statement, group, encode]
theorem ldSTVx (x : RegIdx) : Statement (.ldSTVx x) := by simp [Statement, group, encode]
theorem addI (x : RegIdx) : Statement (.addI x) := by simp [Statement, group, encode]
theorem ldF (x : RegIdx) : Statement (.ldF x) := by simp [Statement, group, encode]
theorem ldB (x : RegIdx) : Statement (.ldB x) := by simp [Statement, group, encode]
theorem storeRegs (x : RegIdx) : Statement (.storeRegs x) := by simp [Statement, group, encode]
theorem loadRegs (x : RegIdx) : Statement (.loadRegs x) := by simp [Statement, group, encode]
theorem undefF (bits : Addr12) : Statement (.undefF bits) := by simp [Statement, group, encode]

end Sys2Proof.Laws.PrimaryGroup
end

