-- ==== Sys2Proof/Tests/Slice0.lean ====
section
/-! SUPPORT. Tests of this model: expected values are those of spec/95_test_vectors.md (its vector's id is in each test's
comment) or are worked out by hand from the rule named; and for each obligation a witness that its hypotheses can be met. -/

namespace Sys2Proof.Tests

open Sys2Proof Sys2Proof.Machine

/-! ### Helpers -/

/-- The reset state with registers set by hand (spec/95_test_vectors.md section 0). -/
def regs (rs : List (RegIdx × Byte)) : State := rs.foldl (fun s p => s.writeV p.1 p.2) State.reset

/-- The state an outcome leaves, if it leaves one. -/
def nextOf : Result → Option State
  | .next t => some t
  | .fault _ => none
  | .refused _ => none

/-- The state after one `Step(rnd)` of the word stored where `s` fetches. -/
def ran (s : State) (w : Word) (rnd : Byte := 0x00#8) : Option State := nextOf (performStep rnd (s.withWordAtPc w))

/-- What a test looks at in the state after. -/
def look {α : Type} (o : Option State) (f : State → α) : Option α := o.map f

/-! ### WellFormed refuses ill-formed terms -/

theorem test_wellFormed_sys_of_a_ret_word : Instr.wellFormed (.sys 0x0EE#12) = false := by decide

theorem test_wellFormed_undef8_of_a_defined_subop :
    Instr.wellFormed (.undef8 0x014#12) = false ∧ Instr.wellFormed (.undef8 0x01E#12) = false := by decide

theorem test_wellFormed_undefF_of_a_defined_subop :
    Instr.wellFormed (.undefF 0x365#12) = false ∧ Instr.wellFormed (.undefF 0x31E#12) = false := by decide

/-! ### Decoding: one word of every row, written out from the encoding column of spec/opcode_table.json -/

theorem test_decode_ret : decodeWord 0b0000_11111111_1110#16 = .ret 0xFF#8 := by decide
theorem test_decode_sys : decodeWord 0b0000_000011101111#16 = .sys 0x0EF#12 := by decide
theorem test_decode_jp : decodeWord 0b0001_101010111100#16 = .jp 0xABC#12 := by decide
theorem test_decode_call : decodeWord 0b0010_001100000001#16 = .call 0x301#12 := by decide
theorem test_decode_seImm : decodeWord 0b0011_1010_01000010#16 = .seImm 0xA#4 0x42#8 := by decide
theorem test_decode_sneImm : decodeWord 0b0100_1111_00000001#16 = .sneImm 0xF#4 0x01#8 := by decide
theorem test_decode_seReg : decodeWord 0b0101_1010_1011_0111#16 = .seReg 0xA#4 0xB#4 0x7#4 := by decide
theorem test_decode_ldImm : decodeWord 0b0110_1010_01000010#16 = .ldImm 0xA#4 0x42#8 := by decide
theorem test_decode_addImm : decodeWord 0b0111_0001_11111110#16 = .addImm 0x1#4 0xFE#8 := by decide
theorem test_decode_ldReg : decodeWord 0b1000_0001_0010_0000#16 = .ldReg 0x1#4 0x2#4 := by decide
theorem test_decode_orReg : decodeWord 0b1000_0001_0010_0001#16 = .orReg 0x1#4 0x2#4 := by decide
theorem test_decode_andReg : decodeWord 0b1000_0001_0010_0010#16 = .andReg 0x1#4 0x2#4 := by decide
theorem test_decode_xorReg : decodeWord 0b1000_0001_0010_0011#16 = .xorReg 0x1#4 0x2#4 := by decide
theorem test_decode_addReg : decodeWord 0b1000_0001_0010_0100#16 = .addReg 0x1#4 0x2#4 := by decide
theorem test_decode_subReg : decodeWord 0b1000_0001_0010_0101#16 = .subReg 0x1#4 0x2#4 := by decide
theorem test_decode_shr : decodeWord 0b1000_0001_0010_0110#16 = .shr 0x1#4 0x2#4 := by decide
theorem test_decode_subnReg : decodeWord 0b1000_0001_0010_0111#16 = .subnReg 0x1#4 0x2#4 := by decide
theorem test_decode_shl : decodeWord 0b1000_0001_0010_1110#16 = .shl 0x1#4 0x2#4 := by decide
theorem test_decode_undef8 : decodeWord 0b1000_0001_0010_1111#16 = .undef8 0x12F#12 := by decide
theorem test_decode_sneReg : decodeWord 0b1001_1010_1011_1111#16 = .sneReg 0xA#4 0xB#4 0xF#4 := by decide
theorem test_decode_ldI : decodeWord 0b1010_000100100011#16 = .ldI 0x123#12 := by decide
theorem test_decode_jpV0 : decodeWord 0b1011_010000000000#16 = .jpV0 0x400#12 := by decide
theorem test_decode_rnd : decodeWord 0b1100_0010_00001111#16 = .rnd 0x2#4 0x0F#8 := by decide
theorem test_decode_undefD : decodeWord 0b1101_000100100011#16 = .undefD 0x123#12 := by decide
theorem test_decode_undefE : decodeWord 0b1110_000110011110#16 = .undefE 0x19E#12 := by decide
theorem test_decode_ldVxDT : decodeWord 0b1111_0011_00000111#16 = .ldVxDT 0x3#4 := by decide
theorem test_decode_ldDTVx : decodeWord 0b1111_0011_00010101#16 = .ldDTVx 0x3#4 := by decide
theorem test_decode_ldSTVx : decodeWord 0b1111_0011_00011000#16 = .ldSTVx 0x3#4 := by decide
theorem test_decode_addI : decodeWord 0b1111_0011_00011110#16 = .addI 0x3#4 := by decide
theorem test_decode_ldF : decodeWord 0b1111_0011_00101001#16 = .ldF 0x3#4 := by decide
theorem test_decode_ldB : decodeWord 0b1111_0011_00110011#16 = .ldB 0x3#4 := by decide
theorem test_decode_storeRegs : decodeWord 0b1111_0011_01010101#16 = .storeRegs 0x3#4 := by decide
theorem test_decode_loadRegs : decodeWord 0b1111_0011_01100101#16 = .loadRegs 0x3#4 := by decide
theorem test_decode_undefF : decodeWord 0b1111_0001_00011111#16 = .undefF 0x11F#12 := by decide

/-- The bytes stand high byte first (rule R33), and the rest of the list is left. -/
theorem test_decodeBytes : decodeBytes [0x6A#8, 0x42#8, 0x99#8] = .ok (.ldImm 0xA#4 0x42#8, [0x99#8]) := by decide

theorem test_decodeBytes_truncated : decodeBytes [0x6A#8] = .error .truncated := by decide

theorem test_decodeTableWord : decodeTableWord 16 0x8014 = some (.addReg 0x0#4 0x1#4) := by decide

/-- The word is stored and fetched, and runs as the first step after reset. -/
theorem test_withFetchWord :
    (State.reset.withFetchWord 16 0x6A42).fetchWord = some 0x6A42#16
      ∧ look (nextOf (step (State.reset.withFetchWord 16 0x6A42))) (fun t => (t.readV 0xA#4, t.pc, t.outcome))
        = some (0x42#8, 0x0202#16, some (.ok 0x6A42#16)) := by decide

/-! ### Control flow -/

/-- F7, F11. -/
theorem test_ret : look (ran ({ State.reset with sp := 1 }.setSlot 0 0x0ABC#16) 0x0FFE#16) (fun t => (t.pc, t.sp.val))
    = some (0x0ABC#16, 0) := by decide

/-- F9. -/
theorem test_ret_underflow : look (ran State.reset 0x00EE#16) (fun t => (t.pc, t.sp.val, t.faultBit, t.faultCause, t.outcome))
    = some (0x0202#16, 0, 1#1, 5#4, some (.fault .stackUnderflow)) := by decide

/-- F14: a low nibble F is SYS, also with an empty stack. -/
theorem test_sys : look (ran State.reset 0x00EF#16) (fun t => (t.pc, t.fault, t.outcome))
    = some (0x0202#16, none, some (.ok 0x00EF#16)) := by decide

/-- F15: the halt signal. -/
theorem test_halt : look (ran State.reset 0x0000#16) (fun t => (t.pc, t.halted)) = some (0x0202#16, true) := by decide

/-- F1. -/
theorem test_jp : look (ran State.reset 0x1ABC#16) (fun t => (t.pc, t.sp.val)) = some (0x0ABC#16, 0) := by decide

/-- F5: the 16th outstanding call is legal. -/
theorem test_call : look (ran { State.reset with sp := 15 } 0x2300#16) (fun t => (t.pc, t.sp.val, t.stack[15], t.stack[14]))
    = some (0x0300#16, 16, 0x0202#16, 0x0000#16) := by decide

/-- F6. -/
theorem test_call_overflow : look (ran { State.reset with sp := 16 } 0x2300#16)
    (fun t => (t.pc, t.sp.val, t.faultCause, t.stack[15])) = some (0x0202#16, 16, 4#4, 0x0000#16) := by decide

/-- F17: the sum is not reduced. -/
theorem test_jpV0 : look (ran (regs [(0x0#4, 0xFF#8), (0xF#4, 0x77#8)]) 0xBFFF#16) (fun t => t.pc) = some 0x10FE#16 := by
  decide

/-! ### Skips -/

/-- Q1, Q2. -/
theorem test_seImm : look (ran (regs [(0xA#4, 0x42#8)]) 0x3A42#16) (fun t => t.pc) = some 0x0204#16
    ∧ look (ran (regs [(0xA#4, 0x43#8)]) 0x3A42#16) (fun t => t.pc) = some 0x0202#16 := by decide

/-- Q4, Q5. -/
theorem test_sneImm : look (ran (regs [(0xA#4, 0x42#8)]) 0x4A42#16) (fun t => t.pc) = some 0x0202#16
    ∧ look (ran (regs [(0xA#4, 0x43#8)]) 0x4A42#16) (fun t => t.pc) = some 0x0204#16 := by decide

/-- Q7, Q9. -/
theorem test_seReg : look (ran (regs [(0xA#4, 0x07#8), (0xB#4, 0x07#8)]) 0x5AB7#16) (fun t => t.pc) = some 0x0204#16
    ∧ look (ran (regs [(0xA#4, 0x07#8), (0xB#4, 0x08#8)]) 0x5AB0#16) (fun t => t.pc) = some 0x0202#16 := by decide

/-- Q11, Q13. -/
theorem test_sneReg : look (ran (regs [(0xA#4, 0x07#8), (0xB#4, 0x08#8)]) 0x9ABF#16) (fun t => t.pc) = some 0x0204#16
    ∧ look (ran (regs [(0xA#4, 0x07#8), (0xB#4, 0x07#8)]) 0x9AB0#16) (fun t => t.pc) = some 0x0202#16 := by decide

/-! ### Immediates and random -/

/-- M2. -/
theorem test_ldImm : look (ran (regs [(0xA#4, 0x99#8)]) 0x6A00#16) (fun t => t.readV 0xA#4) = some 0x00#8 := by decide

/-- M4. -/
theorem test_addImm : look (ran (regs [(0xA#4, 0xFF#8), (0xF#4, 0x55#8)]) 0x7A01#16) (fun t => (t.readV 0xA#4, t.readV 0xF#4))
    = some (0x00#8, 0x55#8) := by decide

/-- M9. -/
theorem test_ldI : look (ran { State.reset with i := 0xFFFF#16 } 0xAFFF#16) (fun t => t.i) = some 0x0FFF#16 := by decide

/-- M11, M15. -/
theorem test_rnd : look (ran State.reset 0xC20F#16 0xA7#8) (fun t => t.readV 0x2#4) = some 0x07#8
    ∧ look (ran State.reset 0xCF3C#16 0xFF#8) (fun t => t.readV 0xF#4) = some 0x3C#8 := by decide

/-! ### The ALU -/

/-- A1, B16. -/
theorem test_ldReg : look (ran (regs [(0x1#4, 0x5A#8), (0xF#4, 0x55#8)]) 0x8010#16) (fun t => (t.readV 0x0#4, t.readV 0xF#4))
    = some (0x5A#8, 0x55#8) := by decide

/-- S1. -/
theorem test_orReg : look (ran (regs [(0x0#4, 0xF0#8), (0x1#4, 0x3C#8), (0xF#4, 0x55#8)]) 0x8011#16)
    (fun t => (t.readV 0x0#4, t.readV 0xF#4)) = some (0xFC#8, 0x55#8) := by decide

/-- S1. -/
theorem test_andReg : look (ran (regs [(0x0#4, 0xF0#8), (0x1#4, 0x3C#8), (0xF#4, 0x55#8)]) 0x8012#16)
    (fun t => (t.readV 0x0#4, t.readV 0xF#4)) = some (0x30#8, 0x55#8) := by decide

/-- S1. -/
theorem test_xorReg : look (ran (regs [(0x0#4, 0xF0#8), (0x1#4, 0x3C#8), (0xF#4, 0x55#8)]) 0x8013#16)
    (fun t => (t.readV 0x0#4, t.readV 0xF#4)) = some (0xCC#8, 0x55#8) := by decide

/-- A9, A10. -/
theorem test_addReg : look (ran (regs [(0x0#4, 0xFF#8), (0x1#4, 0x01#8)]) 0x8014#16) (fun t => (t.readV 0x0#4, t.readV 0xF#4))
      = some (0x00#8, 0x01#8)
    ∧ look (ran (regs [(0x0#4, 0xFE#8), (0x1#4, 0x01#8)]) 0x8014#16) (fun t => (t.readV 0x0#4, t.readV 0xF#4))
      = some (0xFF#8, 0x00#8) := by decide

/-- B1, B3: VF as the destination, and as the source. -/
theorem test_addReg_vF : look (ran (regs [(0xF#4, 0x07#8), (0x1#4, 0x25#8)]) 0x8F14#16) (fun t => t.readV 0xF#4) = some 0x00#8
    ∧ look (ran (regs [(0x1#4, 0x10#8), (0xF#4, 0x01#8)]) 0x81F4#16) (fun t => (t.readV 0x1#4, t.readV 0xF#4))
      = some (0x10#8, 0x00#8) := by decide

/-- A14, A16: VF is 1 on borrow, and not on equal operands. -/
theorem test_subReg : look (ran (regs [(0x1#4, 0x01#8)]) 0x8015#16) (fun t => (t.readV 0x0#4, t.readV 0xF#4))
      = some (0xFF#8, 0x01#8)
    ∧ look (ran (regs [(0x0#4, 0x33#8), (0x1#4, 0x33#8), (0xF#4, 0x01#8)]) 0x8015#16)
        (fun t => (t.readV 0x0#4, t.readV 0xF#4)) = some (0x00#8, 0x00#8) := by decide

/-- B5. -/
theorem test_subReg_vF : look (ran (regs [(0xF#4, 0x07#8), (0x1#4, 0x25#8)]) 0x8F15#16) (fun t => t.readV 0xF#4)
    = some 0x01#8 := by decide

/-- A27: the y register is neither read nor written. -/
theorem test_shr : look (ran (regs [(0x2#4, 0x05#8), (0x3#4, 0xAA#8)]) 0x8236#16)
    (fun t => (t.readV 0x2#4, t.readV 0x3#4, t.readV 0xF#4)) = some (0x02#8, 0xAA#8, 0x01#8) := by decide

/-- B13. -/
theorem test_shr_vF : look (ran (regs [(0xF#4, 0x03#8)]) 0x8F06#16) (fun t => t.readV 0xF#4) = some 0x00#8 := by decide

/-- A19, B10. -/
theorem test_subnReg : look (ran (regs [(0x0#4, 0x01#8)]) 0x8017#16) (fun t => (t.readV 0x0#4, t.readV 0xF#4))
      = some (0xFF#8, 0x01#8)
    ∧ look (ran (regs [(0x1#4, 0x10#8), (0xF#4, 0x20#8)]) 0x81F7#16) (fun t => (t.readV 0x1#4, t.readV 0xF#4))
      = some (0xF0#8, 0x01#8) := by decide

/-- A32. -/
theorem test_shl : look (ran (regs [(0x2#4, 0x81#8), (0x3#4, 0xAA#8)]) 0x823E#16)
    (fun t => (t.readV 0x2#4, t.readV 0x3#4, t.readV 0xF#4)) = some (0x02#8, 0xAA#8, 0x01#8) := by decide

/-- B14. -/
theorem test_shl_vF : look (ran (regs [(0xF#4, 0x81#8)]) 0x8F0E#16) (fun t => t.readV 0xF#4) = some 0x00#8 := by decide

/-! ### Timers -/

/-- K6. -/
theorem test_ldVxDT : look (ran { State.reset with dt := 0x2A#8, st := 0x11#8 } 0xF307#16) (fun t => (t.readV 0x3#4, t.dt))
    = some (0x2A#8, 0x2A#8) := by decide

/-- K8. -/
theorem test_ldDTVx : look (ran { regs [(0x3#4, 0x3C#8)] with st := 0x11#8 } 0xF315#16) (fun t => (t.dt, t.st))
    = some (0x3C#8, 0x11#8) := by decide

/-- K9. -/
theorem test_ldSTVx : look (ran { regs [(0x3#4, 0xFF#8)] with dt := 0x11#8 } 0xF318#16) (fun t => (t.dt, t.st))
    = some (0x11#8, 0xFF#8) := by decide

/-- K2. -/
theorem test_tick : look (nextOf (perform .tick { State.reset with st := 0x05#8 })) (fun t => (t.dt, t.st, t.outcome))
    = some (0x00#8, 0x04#8, none) := by decide

/-! ### Index and memory -/

/-- X3, X4: 4096 is no overflow, 65536 is one. -/
theorem test_addI : look (ran { regs [(0x2#4, 0x01#8), (0xF#4, 0x01#8)] with i := 0x0FFF#16 } 0xF21E#16)
      (fun t => (t.i, t.readV 0xF#4)) = some (0x1000#16, 0x00#8)
    ∧ look (ran { regs [(0x2#4, 0xFF#8)] with i := 0xFF01#16 } 0xF21E#16) (fun t => (t.i, t.readV 0xF#4))
      = some (0x0000#16, 0x01#8) := by decide

/-- X6. -/
theorem test_addI_vF : look (ran { regs [(0xF#4, 0x05#8)] with i := 0x0300#16 } 0xFF1E#16) (fun t => (t.i, t.readV 0xF#4))
    = some (0x0300#16, 0x00#8) := by decide

/-- X8e, X8f: the whole byte. -/
theorem test_ldF : look (ran (regs [(0x3#4, 0x10#8)]) 0xF329#16) (fun t => t.i) = some 0x0050#16
    ∧ look (ran (regs [(0x3#4, 0xFF#8)]) 0xF329#16) (fun t => t.i) = some 0x04FB#16 := by decide

/-- X21: V4 = FF (dec 255), at the last legal place. -/
theorem test_ldB : look (ran { regs [(0x4#4, 0xFF#8)] with i := 0x0FFD#16 } 0xF433#16)
    (fun t => (t.memRead 0xFFD, t.memRead 0xFFE, t.memRead 0xFFF, t.i))
    = some (some 0x02#8, some 0x05#8, some 0x05#8, 0x0FFD#16) := by decide

/-- X22. -/
theorem test_ldB_fault : look (ran { regs [(0x4#4, 0xFF#8)] with i := 0x0FFE#16 } 0xF433#16)
    (fun t => (t.faultCause, t.memRead 0xFFE, t.pc)) = some (3#4, some 0x00#8, 0x0202#16) := by decide

/-- X11. -/
theorem test_storeRegs : look (ran { regs [(0x0#4, 0x01#8), (0x1#4, 0x02#8), (0x2#4, 0x03#8), (0x3#4, 0x04#8)]
      with i := 0x0300#16 } 0xF255#16)
    (fun t => (t.memRead 0x300, t.memRead 0x301, t.memRead 0x302, t.memRead 0x303, t.i))
    = some (some 0x01#8, some 0x02#8, some 0x03#8, some 0x00#8, 0x0300#16) := by decide

/-- X13. -/
theorem test_storeRegs_fault : look (ran { regs [(0x0#4, 0x01#8)] with i := 0x0FFD#16 } 0xF355#16)
    (fun t => (t.outcome, t.memRead 0xFFD)) = some (some (.fault .dataAddrWrite), some 0x00#8) := by decide

/-- X24, from the instruction's own bytes on. -/
theorem test_loadRegs : look (ran { regs [(0x3#4, 0x99#8)] with i := 0x0200#16 } 0xFF65#16)
    (fun t => (t.readV 0x0#4, t.readV 0x1#4, t.readV 0x3#4, t.i)) = some (0xFF#8, 0x65#8, 0x00#8, 0x0200#16) := by decide

/-- X20. -/
theorem test_loadRegs_fault : look (ran { regs [(0x0#4, 0x99#8)] with i := 0xFFFF#16 } 0xF065#16)
    (fun t => (t.faultCause, t.readV 0x0#4)) = some (2#4, 0x99#8) := by decide

/-! ### Decode failures, fetch faults, Load and Reset -/

/-- G8. -/
theorem test_undef8 : look (ran State.reset 0x8129#16) (fun t => (t.outcome, t.pc, t.fault))
    = some (some (.decodeFail 0x8129#16 .secondary), 0x0202#16, none) := by decide

/-- G1. -/
theorem test_undefD : look (ran State.reset 0xD123#16) (fun t => (t.outcome, t.pc, t.fault))
    = some (some (.decodeFail 0xD123#16 .primary), 0x0202#16, none) := by decide

/-- G2. -/
theorem test_undefE : look (ran State.reset 0xE19E#16) (fun t => (t.outcome, t.pc, t.fault))
    = some (some (.decodeFail 0xE19E#16 .primary), 0x0202#16, none) := by decide

/-- G13. -/
theorem test_undefF : look (ran State.reset 0xF11F#16) (fun t => (t.outcome, t.pc, t.fault))
    = some (some (.decodeFail 0xF11F#16 .secondary), 0x0202#16, none) := by decide

/-- E2. -/
theorem test_fetch_fault : look (nextOf (performStep 0x00#8 { State.reset with pc := 0x0FFF#16 }))
    (fun t => (t.pc, t.faultBit, t.faultCause)) = some (0x0FFF#16, 1#1, 1#4) := by decide

/-- L4, L5. -/
theorem test_load : look (nextOf (perform (.load [0xAB#8] 0xFFF) State.reset)) (fun t => (t.memRead 0xFFF, t.outcome))
      = some (some 0xAB#8, some .loaded)
    ∧ look (nextOf (perform (.load [0xAB#8, 0xCD#8] 0xFFF) State.reset)) (fun t => (t.memRead 0xFFF, t.faultCause))
      = some (some 0x00#8, 6#4) := by decide

/-- A Reset clears a latched fault (rule R180). -/
theorem test_reset : look (nextOf (perform .reset { State.reset with fault := some .fetchAddr, dt := 0x05#8 }))
    (fun t => (t.faultBit, t.dt, t.pc)) = some (0#1, 0x00#8, 0x0200#16) := by decide

/-- A core configured with another PROGRAM_START goes back to its own on Reset (rules R8, R180), and keeps it. -/
theorem test_reset_programStart : look (nextOf (step { State.resetAt 0x0100#16 with pc := 0x0ABC#16, schedule := [.reset] }))
    (fun t => (t.pc, t.programStart)) = some (0x0100#16, 0x0100#16) := by decide

/-- S8: a scheduled Load writes memory when the step runs it (rules R2, R39). -/
theorem test_step_load : look (nextOf (step { State.reset with schedule := [.load [0xAB#8, 0xCD#8] 0x100] }))
    (fun t => (t.memRead 0x100, t.memRead 0x101, t.memRead 0x102, t.schedule.length))
    = some (some 0xAB#8, some 0xCD#8, some 0x00#8, 0) := by decide

/-! ### Witnesses: the hypotheses of the obligations can be met -/

/-- A state with a word where it fetches. -/
def holding (w : Word) : State := State.reset.withWordAtPc w

/-- A state that holds a latched fault. -/
def faulted : State := { State.reset with fault := some .stackOverflow, dt := 0x05#8 }

theorem witness_DecodeOfEncodeIsTheInstruction :
    Instr.wellFormed (.sys 0x0EF#12) = true ∧ Instr.wellFormed (.undef8 0x01F#12) = true
      ∧ Instr.wellFormed (.undefF 0x31F#12) = true ∧ Instr.wellFormed (.ret 0xFF#8) = true := by decide

theorem witness_IgnoredBitsHaveNoEffect_ret :
    opField 0x000E#16 = opField 0x0FFE#16 ∧ opField 0x000E#16 = 0x0#4 ∧ nField 0x000E#16 = 0xE#4
      ∧ nField 0x0FFE#16 = 0xE#4 := by decide

theorem witness_IgnoredBitsHaveNoEffect_skip :
    opField 0x5AB0#16 = opField 0x5ABF#16 ∧ opField 0x5AB0#16 = 0x5#4 ∧ xField 0x5AB0#16 = xField 0x5ABF#16
      ∧ yField 0x5AB0#16 = yField 0x5ABF#16 ∧ opField 0x9AB0#16 = opField 0x9ABF#16 ∧ opField 0x9AB0#16 = 0x9#4
      ∧ xField 0x9AB0#16 = xField 0x9ABF#16 ∧ yField 0x9AB0#16 = yField 0x9ABF#16 := by decide

theorem witness_IgnoredBitsHaveNoEffect_shift :
    opField 0x8206#16 = opField 0x82F6#16 ∧ opField 0x8206#16 = 0x8#4 ∧ xField 0x8206#16 = xField 0x82F6#16
      ∧ nField 0x8206#16 = nField 0x82F6#16 ∧ nField 0x82F6#16 = 0x6#4 ∧ opField 0x820E#16 = opField 0x82FE#16
      ∧ xField 0x820E#16 = xField 0x82FE#16 ∧ nField 0x820E#16 = nField 0x82FE#16 ∧ nField 0x82FE#16 = 0xE#4 := by decide

theorem witness_StepRunsTheDecodedInstruction_free :
    ∃ s t : State, s.fault = none ∧ s.memRead s.pc.toNat = some 0xC2#8 ∧ s.memRead (s.pc.toNat + 1) = some 0x0F#8
      ∧ decodeBytes [0xC2#8, 0x0F#8] = .ok (.rnd 0x2#4 0x0F#8, []) ∧ s.schedule = []
      ∧ exec (.rnd 0x2#4 0x0F#8)
          { s with pc := s.pc + 2#16, rnd := Config.randomByte s.draws, draws := s.draws + 1, outcome := none } = .next t :=
  ⟨holding 0xC20F#16, _, by decide, by decide, by decide, by decide, by decide, rfl⟩

theorem witness_StepRunsTheDecodedInstruction_scheduled :
    ∃ s t : State, s.fault = none ∧ s.memRead s.pc.toNat = some 0xC2#8 ∧ s.memRead (s.pc.toNat + 1) = some 0x0F#8
      ∧ decodeBytes [0xC2#8, 0x0F#8] = .ok (.rnd 0x2#4 0x0F#8, []) ∧ s.schedule = [.step 0xA7#8]
      ∧ exec (.rnd 0x2#4 0x0F#8) { s with pc := s.pc + 2#16, rnd := 0xA7#8, schedule := [], outcome := none } = .next t :=
  ⟨{ holding 0xC20F#16 with schedule := [.step 0xA7#8] }, _, by decide, by decide, by decide, by decide, by decide, rfl⟩

theorem witness_StepRunsTheDecodedInstruction_request :
    { State.reset with schedule := [.load [0xAB#8] 0x100, .tick] }.schedule = .load [0xAB#8] 0x100 :: [.tick]
      ∧ State.reset.schedule = [] := by decide

theorem witness_StepReportsItsOutcome_latched :
    ∃ t : State, performStep 0x00#8 faulted = .next t ∧ faulted.fault = some .stackOverflow := ⟨_, rfl, rfl⟩

theorem witness_StepReportsItsOutcome_unfetched :
    ∃ s t : State, performStep 0x00#8 s = .next t ∧ s.fault = none ∧ s.fetchWord = none :=
  ⟨{ State.reset with pc := 0x0FFF#16 }, _, rfl, by decide, by decide⟩

theorem witness_StepReportsItsOutcome_undecoded :
    ∃ s t : State, performStep 0x00#8 s = .next t ∧ s.fault = none ∧ s.fetchWord = some 0x8128#16
      ∧ FailsDecode 0x8128#16 .secondary :=
  ⟨holding 0x8128#16, _, rfl, by decide, by decide, .inr (.inl ⟨rfl, by decide, by decide⟩)⟩

theorem witness_StepReportsItsOutcome_faulted :
    ∃ s t : State, performStep 0x00#8 s = .next t ∧ s.fault = none ∧ s.fetchWord = some 0x00EE#16
      ∧ (∀ cls, ¬ FailsDecode 0x00EE#16 cls) ∧ t.fault = some .stackUnderflow := by
  refine ⟨holding 0x00EE#16, _, rfl, by decide, by decide, fun cls => ?_, by decide⟩
  cases cls <;> unfold FailsDecode <;> decide

theorem witness_StepReportsItsOutcome_ok :
    ∃ s t : State, performStep 0x00#8 s = .next t ∧ s.fault = none ∧ s.fetchWord = some 0x8017#16
      ∧ (∀ cls, ¬ FailsDecode 0x8017#16 cls) ∧ t.fault = none := by
  refine ⟨holding 0x8017#16, _, rfl, by decide, by decide, fun cls => ?_, by decide⟩
  cases cls <;> unfold FailsDecode <;> decide

theorem witness_FetchOutsideMemoryFaults :
    { State.reset with pc := 0x0FFF#16 }.fault = none ∧ 4095 ≤ { State.reset with pc := 0x0FFF#16 }.pc.toNat
      ∧ 4095 ≤ { State.reset with pc := 0x10FE#16 }.pc.toNat := by decide

theorem witness_FetchIsBigEndian :
    ∃ s : State, s.pc = 0x0FFE#16 ∧ s.memRead s.pc.toNat = some 0x6A#8 ∧ s.memRead (s.pc.toNat + 1) = some 0x01#8 :=
  ⟨{ State.reset with pc := 0x0FFE#16 }.withWordAtPc 0x6A01#16, by decide, by decide, by decide⟩

theorem witness_StoredWordIsFetchedNext :
    ∃ (s : State) (x : RegIdx), 1 ≤ x.toNat ∧ s.indexAddr = s.pc.toNat ∧ s.indexAddr + x.toNat < 4096 :=
  ⟨{ State.reset with i := 0x0FFE#16, pc := 0x0FFE#16 }, 0x1#4, by decide, by decide, by decide⟩

theorem witness_LatchedFaultStopsStepAndLoadNotTick : faulted.fault = some .stackOverflow := by decide

theorem witness_OnlyResetClearsTheFaultLatch :
    ∃ t : State, faulted.fault = some .stackOverflow ∧ (∀ rest, faulted.schedule ≠ .reset :: rest) ∧ step faulted = .next t :=
  ⟨_, rfl, fun _ h => by simp [faulted, State.reset, State.resetAt] at h, rfl⟩

theorem witness_DecodeFailureOnlyAdvancesPcAndReports :
    (holding 0xD123#16).fault = none ∧ (holding 0xD123#16).fetchWord = some 0xD123#16
      ∧ (holding 0xF100#16).fetchWord = some 0xF100#16 ∧ (holding 0x812F#16).fetchWord = some 0x812F#16
      ∧ FailsDecode 0xD123#16 .primary ∧ FailsDecode 0xEFFF#16 .primary
      ∧ FailsDecode 0x812F#16 .secondary ∧ FailsDecode 0xF100#16 .secondary := by
  refine ⟨by decide, by decide, by decide, by decide, ?_, ?_, ?_, ?_⟩ <;> unfold FailsDecode <;> decide

theorem witness_SysIsANoOperation :
    (holding 0x00E0#16).fault = none ∧ (holding 0x00E0#16).fetchWord = some 0x00E0#16 ∧ opField 0x00E0#16 = 0x0#4
      ∧ nField 0x00E0#16 ≠ 0xE#4 ∧ nField 0x000F#16 ≠ 0xE#4 := by decide

theorem witness_CallPushesTheAdvancedPc : { State.reset with sp := 15 }.sp.val < 16 := by decide

theorem witness_RetPopsTheMostRecentAddress :
    0 < { State.reset with sp := 1 }.sp.val ∧ 0 < { State.reset with sp := 16 }.sp.val := by decide

theorem witness_StackFaultsAreTakenPrecisely :
    { State.reset with sp := 16 }.sp.val = 16 ∧ State.reset.sp.val = 0 := by decide

theorem witness_RetUndoesCall :
    ∃ s t u : State, s.sp.val < 16 ∧ exec (.call 0x300#12) s = .next t ∧ u.sp = t.sp
      ∧ (∀ k : Fin Config.stackDepth, k.val < t.sp.val → u.stack[k] = t.stack[k]) ∧ u.stack ≠ t.stack :=
  ⟨{ State.reset with sp := 14 }, _,
    { State.reset with sp := 15, stack := ((Vector.replicate 16 0x0000#16).set 14 0x0200#16).set 15 0x0302#16 },
    by decide, rfl, by decide, by decide, by decide⟩

theorem witness_RetUndoesCall_full :
    ∃ s t : State, s.sp.val = 15 ∧ exec (.call 0x300#12) s = .next t ∧ t.sp.val = 16 :=
  ⟨{ State.reset with sp := 15 }, _, by decide, rfl, by decide⟩

theorem witness_SkipAddsTwoOrNothing :
    State.reset.pc.toNat + 2 < 65536 ∧ { State.reset with pc := 0xFFFD#16 }.pc.toNat + 2 < 65536 := by decide

theorem witness_LoadIndexZeroExtends :
    ∃ s t : State, exec (.addI 0x2#4) s = .next t ∧ t.i ≠ s.i ∧ 4096 ≤ t.i.toNat :=
  ⟨{ regs [(0x2#4, 0x01#8)] with i := 0x0FFF#16 }, _, rfl, by decide, by decide⟩

theorem witness_RandomByteIsMasked :
    (holding 0xC20F#16).fault = none ∧ (holding 0xC20F#16).fetchWord = some 0xC20F#16 ∧ opField 0xC20F#16 = 0xC#4 := by decide

theorem witness_RandomInputReachesOnlyRnd : ∀ w, (holding 0x8014#16).fetchWord = some w → opField w ≠ 0xC#4 := by
  have h : (holding 0x8014#16).fetchWord = some 0x8014#16 := by decide
  intro w hw
  rw [h] at hw
  cases hw
  decide

theorem witness_WordsOfTheGroups :
    opField 0x1ABC#16 = 0x1#4 ∧ opField 0xBFFF#16 = 0xB#4 ∧ opField 0x3A42#16 = 0x3#4 ∧ opField 0x4A42#16 = 0x4#4
      ∧ opField 0x6A42#16 = 0x6#4 ∧ opField 0x7A01#16 = 0x7#4 ∧ opField 0xAFFF#16 = 0xA#4 ∧ opField 0x8010#16 = 0x8#4
      ∧ nField 0x8010#16 = 0x0#4 ∧ nField 0x8011#16 = 0x1#4 ∧ nField 0x8012#16 = 0x2#4 ∧ nField 0x8013#16 = 0x3#4 := by decide

theorem witness_AluDestinationIsNotVF : (0x0#4 : RegIdx) ≠ 0xF#4 := by decide

theorem witness_StepTouchesTimersOnlyThroughFx15AndFx18 :
    ∃ t u : State, performStep 0x00#8 (holding 0xF307#16) = .next t
      ∧ (∀ w, (holding 0xF307#16).fetchWord = some w → ¬(opField w = 0xF#4 ∧ nnField w = 0x15#8))
      ∧ (∀ w, (holding 0xF307#16).fetchWord = some w → ¬(opField w = 0xF#4 ∧ nnField w = 0x18#8))
      ∧ perform (.load [0xAB#8] 0x100) State.reset = .next u := by
  have h : (holding 0xF307#16).fetchWord = some 0xF307#16 := by decide
  refine ⟨_, _, rfl, fun w hw => ?_, fun w hw => ?_, rfl⟩ <;> rw [h] at hw <;> cases hw <;> decide

theorem witness_TimersFallByTheNumberOfTicks :
    { State.reset with dt := 0x02#8, st := 0xFF#8, schedule := [.tick, .tick, .tick, .tick, .tick] }.schedule
      = List.replicate 5 .tick ++ [] := by decide

theorem witness_CoincidentTickComesFirst :
    ∃ s : State, s.schedule = [.tickAndStep 0x00#8] ∧ s.fault = none ∧ s.fetchWord = some 0xF307#16
      ∧ opField 0xF307#16 = 0xF#4 ∧ nnField 0xF307#16 = 0x07#8 ∧ s.dt = 0x01#8 :=
  ⟨{ holding 0xF307#16 with schedule := [.tickAndStep 0x00#8], dt := 0x01#8 }, by decide⟩

theorem witness_CoincidentTickComesFirst_set :
    ∃ s u : State, s.schedule = [.tickAndStep 0x00#8] ∧ s.fault = none ∧ s.fetchWord = some 0xF315#16
      ∧ opField 0xF315#16 = 0xF#4 ∧ nnField 0xF315#16 = 0x15#8 ∧ u.schedule = [.tickAndStep 0x00#8] ∧ u.fault = none
      ∧ u.fetchWord = some 0xF318#16 ∧ opField 0xF318#16 = 0xF#4 ∧ nnField 0xF318#16 = 0x18#8 :=
  ⟨{ holding 0xF315#16 with schedule := [.tickAndStep 0x00#8] }, { holding 0xF318#16 with schedule := [.tickAndStep 0x00#8] },
    by decide⟩

theorem witness_BcdDigitsAreStoredAtIndex : { State.reset with i := 0x0FFD#16 }.indexAddr + 2 < 4096 := by decide

theorem witness_RegistersAreStoredAtIndex : { State.reset with i := 0x0FF0#16 }.indexAddr + (0xF#4 : RegIdx).toNat < 4096
    ∧ (0xF#4 : RegIdx).toNat ≤ (0xF#4 : RegIdx).toNat := by decide

theorem witness_RegistersAreLoadedFromIndex : { State.reset with i := 0x0FFC#16 }.indexAddr + (0x3#4 : RegIdx).toNat < 4096
    ∧ (0x3#4 : RegIdx).toNat ≤ (0x3#4 : RegIdx).toNat ∧ (0x3#4 : RegIdx).toNat < (0x4#4 : RegIdx).toNat := by decide

theorem witness_DataAddressFaultsAreTakenPrecisely :
    4096 ≤ { State.reset with i := 0x0FFE#16 }.indexAddr + 2
      ∧ 4096 ≤ { State.reset with i := 0x0FFD#16 }.indexAddr + (0x3#4 : RegIdx).toNat := by decide

theorem witness_DumpThenLoadRestoresRegisters :
    ∃ s t u : State, s.indexAddr + (0x3#4 : RegIdx).toNat ≤ 4095 ∧ exec (.storeRegs 0x3#4) s = .next t ∧ u.i = t.i
      ∧ (∀ a, s.indexAddr ≤ a → a ≤ s.indexAddr + (0x3#4 : RegIdx).toNat → u.memRead a = t.memRead a) ∧ u.v ≠ t.v :=
  ⟨{ regs [(0x0#4, 0x23#8)] with i := 0x0FFC#16 }, _, { State.reset with i := 0x0FFC#16, mem := [(0x0FFC, 0x23#8)] },
    by decide, rfl, by decide, fun _ _ _ => rfl, by decide⟩

theorem witness_MemoryReadsBackWhatWasWritten : 4095 < 4096 ∧ 4096 ≤ 4096 := by decide

theorem witness_LoadCopiesBytesOrFaults :
    State.reset.fault = none ∧ 0xFFF + [0xAB#8].length ≤ 4096 ∧ 4096 < 0xFFF + [0xAB#8, 0xCD#8].length
      ∧ 0x1000 + ([] : List Byte).length ≤ 4096 := by decide

theorem witness_ResetRestoresEveryResetValue : { faulted with schedule := [.reset] }.schedule = .reset :: [] := by decide

theorem witness_EveryStepKeepsTheInvariant :
    ∃ s t : State, s.Inv ∧ s.sp.val = 1 ∧ s.pc.toNat = 0x10FE ∧ step s = .next t :=
  ⟨{ State.reset with sp := 1, pc := 0x10FE#16, stack := Vector.replicate 16 0x1000#16, mem := [(0x0FFF, 0xEE#8)] }, _,
    ⟨by decide, .inl (by decide), fun k _ => by simp [Config.memSize]⟩, rfl, by decide, rfl⟩

theorem witness_EveryStepKeepsTheInvariant_programStart :
    ∃ s t : State, s.Inv ∧ s.programStart = 0xFFFF#16 ∧ s.pc = 0xFFFF#16 ∧ s.schedule = [.reset] ∧ step s = .next t :=
  ⟨{ State.resetAt 0xFFFF#16 with schedule := [.reset] }, _,
    ⟨by decide, .inr rfl, fun k hk => by simp [State.resetAt] at hk⟩, rfl, rfl, rfl, rfl⟩

theorem witness_OnlyStoresWriteMemory :
    ∃ t : State, exec (.ldF 0x3#4) State.reset = .next t ∧ (∀ x, Instr.ldF 0x3#4 ≠ .ldB x)
      ∧ (∀ x, Instr.ldF 0x3#4 ≠ .storeRegs x) :=
  ⟨_, rfl, fun x => by simp, fun x => by simp⟩

theorem witness_OnlyNamedInstructionsWriteIndexAndStack :
    ∃ t : State, exec (.storeRegs 0x3#4) State.reset = .next t ∧ (∀ nnn, Instr.storeRegs 0x3#4 ≠ .ldI nnn)
      ∧ (∀ x, Instr.storeRegs 0x3#4 ≠ .addI x) ∧ (∀ x, Instr.storeRegs 0x3#4 ≠ .ldF x)
      ∧ (∀ nnn, Instr.storeRegs 0x3#4 ≠ .call nnn) ∧ (∀ g, Instr.storeRegs 0x3#4 ≠ .ret g) :=
  ⟨_, rfl, fun _ => by simp, fun _ => by simp, fun _ => by simp, fun _ => by simp, fun _ => by simp⟩

theorem witness_OnlySixInstructionsWriteTheFlag :
    ∃ t : State, exec (.loadRegs 0xE#4) State.reset = .next t ∧ Instr.loadRegs 0xE#4 ≠ .loadRegs 0xF#4
      ∧ (∀ x y, Instr.loadRegs 0xE#4 ≠ .addReg x y) ∧ (∀ x y, Instr.loadRegs 0xE#4 ≠ .subReg x y)
      ∧ (∀ x y, Instr.loadRegs 0xE#4 ≠ .subnReg x y) ∧ (∀ x g, Instr.loadRegs 0xE#4 ≠ .shr x g)
      ∧ (∀ x g, Instr.loadRegs 0xE#4 ≠ .shl x g) ∧ (∀ x, Instr.loadRegs 0xE#4 ≠ .addI x)
      ∧ (∀ nn, Instr.loadRegs 0xE#4 ≠ .ldImm 0xF#4 nn) ∧ (∀ nn, Instr.loadRegs 0xE#4 ≠ .addImm 0xF#4 nn)
      ∧ (∀ y, Instr.loadRegs 0xE#4 ≠ .ldReg 0xF#4 y) ∧ (∀ y, Instr.loadRegs 0xE#4 ≠ .orReg 0xF#4 y)
      ∧ (∀ y, Instr.loadRegs 0xE#4 ≠ .andReg 0xF#4 y) ∧ (∀ y, Instr.loadRegs 0xE#4 ≠ .xorReg 0xF#4 y)
      ∧ (∀ nn, Instr.loadRegs 0xE#4 ≠ .rnd 0xF#4 nn) ∧ Instr.loadRegs 0xE#4 ≠ .ldVxDT 0xF#4 := by
  refine ⟨_, rfl, by decide, ?_, ?_, ?_, ?_, ?_, ?_, ?_, ?_, ?_, ?_, ?_, ?_, ?_, by decide⟩ <;> intros <;> simp

theorem witness_SoundTimerInfluencesNothingElse :
    ∃ t : State, step { holding 0xF318#16 with st := 0x11#8 } = .next t := ⟨_, rfl⟩

theorem witness_DeadStackSlotsInfluenceNothing :
    ∃ (s t : State) (other : Vector Word Config.stackDepth),
      (∀ k : Fin Config.stackDepth, k.val < s.sp.val → other[k] = s.stack[k]) ∧ other ≠ s.stack ∧ s.sp.val = 1
        ∧ step s = .next t :=
  ⟨{ holding 0x00EE#16 with sp := 1 }, _, (Vector.replicate 16 0x0000#16).set 1 0x0ABC#16, by decide, by decide, by decide, rfl⟩

end Sys2Proof.Tests
end

/-! PROOFS. What one instruction can do to the state, said once for all 34 of them. -/

namespace Sys2Proof

/-- The instruction writes V[k]: as its destination (rule R12), as the flag (rule R110), or in the row V0..Vx (rule R144). -/
def Instr.WritesV : Instr → RegIdx → Prop
  | .ldImm x _, k | .addImm x _, k | .ldReg x _, k | .orReg x _, k | .andReg x _, k | .xorReg x _, k | .rnd x _, k
  | .ldVxDT x, k => k = x
  | .addReg x _, k | .subReg x _, k | .subnReg x _, k | .shr x _, k | .shl x _, k => k = x ∨ k = Machine.vF
  | .addI _, k => k = Machine.vF
  | .loadRegs x, k => k.toNat ≤ x.toNat
  | _, _ => False

/-- The instruction writes I (rules R102, R140, R141). -/
def Instr.WritesI : Instr → Prop
  | .ldI _ | .addI _ | .ldF _ => True
  | _ => False

end Sys2Proof

namespace Sys2Proof.Machine

/-! ### Bounds on the addresses control flow writes -/

theorem zext16_addr_le (nnn : Addr12) : (zext16 nnn).toNat ≤ 0xFFF := by
  simp only [zext16, BitVec.toNat_setWidth]
  omega

/-- The largest target of `Bnnn` is 0x0FFF + 0xFF (rule R15). -/
theorem jpV0_target_le_maxPc (nnn : Addr12) (b : Byte) : (zext16 nnn + zext16 b).toNat ≤ maxPc := by
  simp only [zext16, BitVec.toNat_add, BitVec.toNat_setWidth, maxPc]
  omega

/-! ### The effects -/

/-- What instruction `i` can turn the state `s` into, each form with the instructions that can have it. -/
inductive Effect (i : Instr) (s : State) : State → Prop
  /-- A fatal fault, and nothing else (rule R153). -/
  | fault (c : Cause) : Effect i s (s.raiseFault c)
  /-- A decode failure, and nothing else (rule R152). -/
  | decodeFailure (w : Word) (cls : FailClass) : Effect i s (s.decodeFailure w cls)
  /-- Registers written, at most those the instruction names. -/
  | regs (v : Vector Byte 16) (hv : ∀ k : RegIdx, ¬ i.WritesV k → v[k.toNat] = s.readV k) : Effect i s { s with v := v }
  /-- I written, by the instructions that do; `Fx1E` writes its flag too. -/
  | index (v : Vector Byte 16) (w : Word) (hi : i.WritesI) (hv : ∀ k : RegIdx, ¬ i.WritesV k → v[k.toNat] = s.readV k) :
      Effect i s { s with v := v, i := w }
  /-- A timer written. -/
  | timers (dt st : Byte) : Effect i s { s with dt := dt, st := st }
  /-- pc kept, moved over one instruction, or set to a target. -/
  | jump (w : Word) (hw : w = s.pc ∨ w = s.pc + 2#16 ∨ w.toNat ≤ maxPc) : Effect i s { s with pc := w }
  /-- A CALL with a free slot (rule R83). -/
  | push (nnn : Addr12) (hi : i = .call nnn) (h : s.sp.val < Config.stackDepth) :
      Effect i s { s with stack := s.stack.set s.sp.val s.pc, sp := ⟨s.sp.val + 1, Nat.succ_lt_succ h⟩, pc := zext16 nnn }
  /-- A RET with a slot in use (rule R80). -/
  | pop (g : Byte) (hi : i = .ret g) (n : Nat) (hn : n < Config.stackDepth) (hsp : s.sp.val = n + 1) :
      Effect i s { s with sp := ⟨n, Nat.lt_succ_of_lt hn⟩, pc := s.stack[n] }
  /-- Bytes stored inside memory, by the two instructions that do. -/
  | store (x : RegIdx) (hi : i = .ldB x ∨ i = .storeRegs x) (a : Nat) (bs : List Byte)
      (h : a + bs.length ≤ Config.memSize) : Effect i s { s with mem := Memory.writeBytes s.mem a bs }

theorem ne_of_not_writesV {i : Instr} {k y : RegIdx} (hk : ¬ i.WritesV k) (hy : i.WritesV y) : k ≠ y :=
  fun e => hk (e ▸ hy)

/-- A write to one register that the instruction names. -/
theorem Effect.writeV {i : Instr} (s : State) (x : RegIdx) (b : Byte) (hx : i.WritesV x) : Effect i s (s.writeV x b) :=
  .regs _ fun k hk => s.readV_writeV_other x k b (ne_of_not_writesV hk hx)

theorem Effect.resultThenFlag {i : Instr} (s : State) (x y : RegIdx) (f : Byte → Byte → Byte × Bool)
    (hx : i.WritesV x) (hf : i.WritesV vF) : Effect i s (s.resultThenFlag x y f) :=
  .regs _ fun k hk => (s.readV_resultThenFlag x y k f).trans <|
    (if_neg (ne_of_not_writesV hk hf)).trans (if_neg (ne_of_not_writesV hk hx))

theorem Effect.flagThenResult {i : Instr} (s : State) (x : RegIdx) (f : Byte → Byte × Bool)
    (hx : i.WritesV x) (hf : i.WritesV vF) : Effect i s (s.flagThenResult x f) :=
  .regs _ fun k hk => (s.readV_flagThenResult x k f).trans <|
    (if_neg (ne_of_not_writesV hk hx)).trans (if_neg (ne_of_not_writesV hk hf))

theorem Effect.indexThenFlag (s : State) (x : RegIdx) : Effect (.addI x) s (s.indexThenFlag x) :=
  .index _ _ trivial fun k hk => (s.readV_indexThenFlag x k).trans (if_neg hk)

theorem Effect.skip {i : Instr} (s : State) (c : Bool) : Effect i s (s.skipIf c) := by
  rw [State.skipIf_eq]
  cases c
  · exact .jump _ (.inl rfl)
  · exact .jump _ (.inr (.inl rfl))

/-! ### Every instruction has one of the effects -/

theorem execRet_effect (g : Byte) (s : State) : ∃ t, execRet g s = .next t ∧ Effect (.ret g) s t := by
  refine ⟨_, execRet_eq g s, ?_⟩
  split
  · next h =>
    have := s.sp.isLt
    exact .pop g rfl (s.sp.val - 1) (by omega) (by omega)
  · exact .fault _

theorem execCall_effect (nnn : Addr12) (s : State) : ∃ t, execCall nnn s = .next t ∧ Effect (.call nnn) s t := by
  refine ⟨_, execCall_eq nnn s, ?_⟩
  split
  · next h => exact .push nnn rfl h
  · exact .fault _

theorem execLdB_effect (x : RegIdx) (s : State) : ∃ t, execLdB x s = .next t ∧ Effect (.ldB x) s t := by
  refine ⟨_, execLdB_eq x s, ?_⟩
  split
  · next h => exact .store x (.inl rfl) _ (bcdDigits (s.readV x)) h
  · exact .fault _

theorem execStoreRegs_effect (x : RegIdx) (s : State) : ∃ t, execStoreRegs x s = .next t ∧ Effect (.storeRegs x) s t := by
  refine ⟨_, execStoreRegs_eq x s, ?_⟩
  split
  · next h => exact .store x (.inr rfl) _ _ (by rwa [State.length_readRegs])
  · exact .fault _

theorem execLoadRegs_effect (x : RegIdx) (s : State) : ∃ t, execLoadRegs x s = .next t ∧ Effect (.loadRegs x) s t := by
  refine ⟨_, execLoadRegs_eq x s, ?_⟩
  split
  · refine .regs _ fun k hk => ?_
    have hlen : (Memory.readBytes s.mem s.indexAddr (regCount x)).length = x.toNat + 1 := Memory.length_readBytes ..
    have hk : x.toNat < k.toNat := Nat.lt_of_not_le hk
    refine (s.readV_writeRegs 0 _ k (by omega)).trans (dif_neg (by omega))
  · exact .fault _

/-- Every instruction answers a next state, and what it did to the state is one of the effects. -/
theorem exec_answers (i : Instr) (s : State) : ∃ t, exec i s = .next t ∧ Effect i s t := by
  cases i with
  | ret g => exact execRet_effect g s
  | call nnn => exact execCall_effect nnn s
  | ldB x => exact execLdB_effect x s
  | storeRegs x => exact execStoreRegs_effect x s
  | loadRegs x => exact execLoadRegs_effect x s
  | sys nnn => exact ⟨s, rfl, .jump _ (.inl rfl)⟩
  | jp nnn => exact ⟨_, rfl, .jump _ (.inr (.inr ((zext16_addr_le nnn).trans (by decide))))⟩
  | jpV0 nnn => exact ⟨_, rfl, .jump _ (.inr (.inr (jpV0_target_le_maxPc nnn _)))⟩
  | seImm x nn => exact ⟨_, rfl, .skip s _⟩
  | sneImm x nn => exact ⟨_, rfl, .skip s _⟩
  | seReg x y g => exact ⟨_, rfl, .skip s _⟩
  | sneReg x y g => exact ⟨_, rfl, .skip s _⟩
  | ldImm x nn => exact ⟨_, rfl, .writeV s x _ rfl⟩
  | addImm x nn => exact ⟨_, rfl, .writeV s x _ rfl⟩
  | ldReg x y => exact ⟨_, rfl, .writeV s x _ rfl⟩
  | orReg x y => exact ⟨_, rfl, .writeV s x _ rfl⟩
  | andReg x y => exact ⟨_, rfl, .writeV s x _ rfl⟩
  | xorReg x y => exact ⟨_, rfl, .writeV s x _ rfl⟩
  | rnd x nn => exact ⟨_, rfl, .writeV s x _ rfl⟩
  | ldVxDT x => exact ⟨_, rfl, .writeV s x _ rfl⟩
  | addReg x y => exact ⟨_, rfl, .resultThenFlag s x y _ (.inl rfl) (.inr rfl)⟩
  | subReg x y => exact ⟨_, rfl, .resultThenFlag s x y _ (.inl rfl) (.inr rfl)⟩
  | subnReg x y => exact ⟨_, rfl, .resultThenFlag s x y _ (.inl rfl) (.inr rfl)⟩
  | shr x g => exact ⟨_, rfl, .flagThenResult s x _ (.inl rfl) (.inr rfl)⟩
  | shl x g => exact ⟨_, rfl, .flagThenResult s x _ (.inl rfl) (.inr rfl)⟩
  | addI x => exact ⟨_, rfl, .indexThenFlag s x⟩
  | ldI nnn => exact ⟨_, rfl, .index s.v _ trivial fun _ _ => rfl⟩
  | ldF x => exact ⟨_, rfl, .index s.v _ trivial fun _ _ => rfl⟩
  | ldDTVx x => exact ⟨_, rfl, .timers _ s.st⟩
  | ldSTVx x => exact ⟨_, rfl, .timers s.dt _⟩
  | undef8 bits => exact ⟨_, rfl, .decodeFailure _ _⟩
  | undefD bits => exact ⟨_, rfl, .decodeFailure _ _⟩
  | undefE bits => exact ⟨_, rfl, .decodeFailure _ _⟩
  | undefF bits => exact ⟨_, rfl, .decodeFailure _ _⟩

theorem exec_effect (i : Instr) (s t : State) (h : exec i s = .next t) : Effect i s t := by
  obtain ⟨u, hu, he⟩ := exec_answers i s
  obtain rfl : u = t := Host.Outcome.next.inj (hu.symm.trans h)
  exact he

/-! ### What the effects leave unchanged -/

/-- A register the instruction does not name keeps its value (rules R7, R12). -/
theorem exec_keeps_unwritten_reg (i : Instr) (s t : State) (h : exec i s = .next t) (k : RegIdx) (hk : ¬ i.WritesV k) :
    t.readV k = s.readV k := by
  cases exec_effect i s t h with
  | regs v hv => exact hv k hk
  | index v w hi hv => exact hv k hk
  | fault | decodeFailure | timers | jump | push | pop | store => rfl

/-- Only the instructions that write I change it (rules R7, R13). -/
theorem exec_keeps_index (i : Instr) (s t : State) (h : exec i s = .next t) (hi : ¬ i.WritesI) : t.i = s.i := by
  cases exec_effect i s t h with
  | index v w hw => exact absurd hw hi
  | fault | decodeFailure | regs | timers | jump | push | pop | store => rfl

/-- Only CALL and RET touch the stack and SP (rules R7, R16). -/
theorem exec_keeps_stack (i : Instr) (s t : State) (h : exec i s = .next t) (hc : ∀ nnn, i ≠ .call nnn)
    (hr : ∀ g, i ≠ .ret g) : t.stack = s.stack ∧ t.sp = s.sp := by
  cases exec_effect i s t h with
  | push nnn hi => exact absurd hi (hc nnn)
  | pop g hi => exact absurd hi (hr g)
  | fault | decodeFailure | regs | index | timers | jump | store => exact ⟨rfl, rfl⟩

/-- Only the two stores change memory (rule R7). -/
theorem exec_keeps_mem (i : Instr) (s t : State) (h : exec i s = .next t) (hb : ∀ x, i ≠ .ldB x)
    (hs : ∀ x, i ≠ .storeRegs x) : t.mem = s.mem := by
  cases exec_effect i s t h with
  | store x hi => exact hi.elim (absurd · (hb x)) (absurd · (hs x))
  | fault | decodeFailure | regs | index | timers | jump | push | pop => rfl

end Sys2Proof.Machine

/-! PROOFS. The invariant of the machine: it holds after reset, and every operation keeps it. -/

namespace Sys2Proof.Machine

/-- The invariant looks at memory, pc, PROGRAM_START and the stack only. -/
theorem State.Inv.of_eq {s t : State} (h : s.Inv) (hm : t.mem = s.mem) (hp : t.pc = s.pc)
    (hps : t.programStart = s.programStart) (hst : t.stack = s.stack) (hsp : t.sp = s.sp) : t.Inv := by
  obtain ⟨mem_wf, pc_bound, stack_bound⟩ := h
  exact ⟨hm ▸ mem_wf, hp ▸ hps ▸ pc_bound, hst ▸ hsp ▸ stack_bound⟩

/-- No slot is in use after reset, and pc is where Reset puts it (rule R23). -/
theorem State.resetAt_inv (p : Word) : (State.resetAt p).Inv where
  mem_wf := Memory.wf_nil
  pc_bound := .inr rfl
  stack_bound k hk := absurd hk (Nat.not_lt_zero k.val)

/-- pc inside memory or just past its end, where a fetch leaves it, goes nowhere past 0x10FE by one instruction, and is the
return address a CALL pushes (rules R15, R80). -/
theorem exec_keeps_inv (i : Instr) (s t : State) (hs : s.Inv) (hpc : s.pc.toNat ≤ Config.memSize)
    (h : exec i s = .next t) : t.Inv := by
  cases exec_effect i s t h with
  | fault | decodeFailure | regs | index | timers => exact hs.of_eq rfl rfl rfl rfl rfl
  | jump w hw =>
    refine ⟨hs.mem_wf, .inl ?_, hs.stack_bound⟩
    simp only [Config.memSize, maxPc] at hpc hw ⊢
    rcases hw with rfl | rfl | hw
    · omega
    · rw [BitVec.toNat_add]; simp only [BitVec.toNat_ofNat]; omega
    · exact hw
  | push nnn hi hsp =>
    refine ⟨hs.mem_wf, .inl ((zext16_addr_le nnn).trans (by decide)), fun k hk => ?_⟩
    by_cases hk' : k.val = s.sp.val
    · simpa [hk'] using hpc
    · have hlive : k.val < s.sp.val := Nat.lt_of_le_of_ne (Nat.le_of_lt_succ hk) hk'
      simpa [Ne.symm hk'] using hs.stack_bound k hlive
  | pop g hi n hn hsp =>
    refine ⟨hs.mem_wf, .inl ?_, fun k hk => hs.stack_bound k (hsp ▸ Nat.lt_succ_of_lt hk)⟩
    exact (hs.stack_bound ⟨n, hn⟩ (hsp ▸ Nat.lt_succ_self n)).trans (by decide)
  | store x hi a bs hfit => exact ⟨Memory.writeBytes_wf _ _ _ hs.mem_wf hfit, hs.pc_bound, hs.stack_bound⟩

/-- After a fetch pc has moved over the word, so it lies inside memory or just past its end (rule R71). -/
theorem State.beginExecute_pc_le (s : State) (r : Byte) (h : s.pc.toNat + 1 < Config.memSize) :
    (s.beginExecute r).pc.toNat ≤ Config.memSize := by
  change (s.pc + 2#16).toNat ≤ Config.memSize
  simp only [BitVec.toNat_add, BitVec.toNat_ofNat, Config.memSize] at h ⊢
  omega

theorem performStep_keeps_inv (r : Byte) (s t : State) (hs : s.Inv) (h : performStep r s = .next t) : t.Inv := by
  rcases performStep_cases r s with ⟨c, -, e⟩ | ⟨-, -, e⟩ | ⟨w, -, hw, e⟩
  · cases e.symm.trans h
    exact hs.of_eq rfl rfl rfl rfl rfl
  · cases e.symm.trans h
    exact hs.of_eq rfl rfl rfl rfl rfl
  · obtain ⟨hfetch, -⟩ := (State.fetchWord_eq_some s w).1 hw
    have hpc := s.beginExecute_pc_le r hfetch
    have hbegin : (s.beginExecute r).Inv := ⟨hs.mem_wf, .inl (hpc.trans (by decide)), hs.stack_bound⟩
    obtain ⟨u, hu, -⟩ := exec_answers (decodeWord w) (s.beginExecute r)
    have hinv := exec_keeps_inv _ _ u hbegin hpc hu
    rw [hu] at e
    cases e.symm.trans h
    rw [State.finishStep_eq]
    exact hinv.of_eq rfl rfl rfl rfl rfl

theorem State.loadOp_inv (s : State) (bytes : List Byte) (offset : Nat) (hs : s.Inv) : (s.loadOp bytes offset).Inv := by
  rcases s.loadOp_cases bytes offset with ⟨c, -, e⟩ | ⟨-, -, e⟩ | ⟨-, hfit, e⟩
  · exact e ▸ hs.of_eq rfl rfl rfl rfl rfl
  · exact e ▸ hs.of_eq rfl rfl rfl rfl rfl
  · exact e ▸ ⟨Memory.writeBytes_wf _ _ _ hs.mem_wf hfit, hs.pc_bound, hs.stack_bound⟩

theorem perform_keeps_inv (q : Request) (s t : State) (hs : s.Inv) (h : perform q s = .next t) : t.Inv := by
  have htick : s.tickOp.Inv := hs.of_eq rfl rfl rfl rfl rfl
  cases q with
  | reset => cases h; exact (State.resetAt_inv s.programStart).of_eq rfl rfl rfl rfl rfl
  | load bytes offset => cases h; exact s.loadOp_inv bytes offset hs
  | tick => cases h; exact htick
  | step r => exact performStep_keeps_inv r s t hs h
  | tickAndStep r => exact performStep_keeps_inv r s.tickOp t htick h

/-- Settles O46: the oldest request, or the free Step, keeps the invariant, which does not look at the schedule or the draws. -/
theorem everyStepKeepsTheInvariant : Obligations.EveryStepKeepsTheInvariant := by
  intro s t hs h
  rcases step_cases s with ⟨q, rest, -, e⟩ | ⟨-, e⟩
  · have hpresented : (s.setSchedule rest).Inv := hs.of_eq rfl rfl rfl rfl rfl
    exact perform_keeps_inv q _ t hpresented (e.symm.trans h)
  · have hdrawn : s.countDraw.Inv := hs.of_eq rfl rfl rfl rfl rfl
    exact performStep_keeps_inv _ _ t hdrawn (e.symm.trans h)

/-- Settles O47, by `State.resetAt_inv`. -/
theorem resetMeetsTheInvariant : Obligations.ResetMeetsTheInvariant :=
  ⟨State.resetAt_inv, State.resetAt_inv Config.programStart⟩

end Sys2Proof.Machine

/-! PROOFS. The statements of spec/00_scope.md about what an operation reads and writes. -/

namespace Sys2Proof.Machine

/-! ### What an instruction may write -/

/-- Settles O48: the bytes read alike because memory is the same. -/
theorem onlyStoresWriteMemory : Obligations.OnlyStoresWriteMemory := by
  intro i s t h hb hs a
  simp only [State.memRead, exec_keeps_mem i s t h hb hs]

/-- Settles O49, by the frame lemmas of I and of the stack. -/
theorem onlyNamedInstructionsWriteIndexAndStack : Obligations.OnlyNamedInstructionsWriteIndexAndStack := by
  intro i s t h
  refine ⟨fun hldI haddI hldF => exec_keeps_index i s t h ?_, exec_keeps_stack i s t h⟩
  unfold Instr.WritesI
  split
  · next nnn => exact absurd rfl (hldI nnn)
  · next x => exact absurd rfl (haddI x)
  · next x => exact absurd rfl (hldF x)
  · exact id

/-- Settles O50: the hypotheses leave no instruction that names VF. -/
theorem onlySixInstructionsWriteTheFlag : Obligations.OnlySixInstructionsWriteTheFlag := by
  intro i s t h haddReg hsubReg hsubnReg hshr hshl haddI hldImm haddImm hldReg horReg handReg hxorReg hrnd hldVxDT hloadRegs
  refine exec_keeps_unwritten_reg i s t h 0xF#4 fun hw => ?_
  cases i with
  | addReg x y => exact haddReg x y rfl
  | subReg x y => exact hsubReg x y rfl
  | subnReg x y => exact hsubnReg x y rfl
  | shr x g => exact hshr x g rfl
  | shl x g => exact hshl x g rfl
  | addI x => exact haddI x rfl
  | ldImm x nn => cases hw; exact hldImm nn rfl
  | addImm x nn => cases hw; exact haddImm nn rfl
  | ldReg x y => cases hw; exact hldReg y rfl
  | orReg x y => cases hw; exact horReg y rfl
  | andReg x y => cases hw; exact handReg y rfl
  | xorReg x y => cases hw; exact hxorReg y rfl
  | rnd x nn => cases hw; exact hrnd nn rfl
  | ldVxDT x => cases hw; exact hldVxDT rfl
  | loadRegs x =>
    have hx : x = 0xF#4 := by
      apply BitVec.eq_of_toNat_eq
      have : 15 ≤ x.toNat := hw
      simp only [BitVec.toNat_ofNat]
      omega
    exact hloadRegs (hx ▸ rfl)
  | _ => exact hw

/-! ### The input of a Step -/

/-- Only the words of group C decode to RND (rule R54). -/
theorem opField_of_decodeWord_eq_rnd (w : Word) (x : RegIdx) (nn : Byte) (h : decodeWord w = .rnd x nn) :
    opField w = 0xC#4 := by
  unfold decodeWord at h
  split at h
  case h_13 => assumption
  case h_1 => unfold decodeGroup0 at h; split at h <;> cases h
  case h_9 => unfold decodeGroup8 at h; split at h <;> cases h
  case h_16 => unfold decodeGroupF at h; split at h <;> cases h
  all_goals cases h

theorem State.skipIf_setRnd (s : State) (b : Byte) (c : Bool) : (s.setRnd b).skipIf c = (s.skipIf c).setRnd b := by
  cases c <;> rfl

/-- An instruction other than RND does the same whatever the input is, and leaves the input as it is. -/
theorem exec_setRnd (i : Instr) (hi : ∀ x nn, i ≠ .rnd x nn) (s : State) (b : Byte) :
    ∃ t, exec i s = .next t ∧ exec i (s.setRnd b) = .next (t.setRnd b) := by
  cases i with
  | rnd x nn => exact absurd rfl (hi x nn)
  | ret g =>
    refine ⟨_, execRet_eq g s, (execRet_eq g _).trans (congrArg _ (Eq.symm ?_))⟩
    exact apply_dite (State.setRnd · b) ..
  | call nnn =>
    refine ⟨_, execCall_eq nnn s, (execCall_eq nnn _).trans (congrArg _ (Eq.symm ?_))⟩
    exact apply_dite (State.setRnd · b) ..
  | ldB x =>
    refine ⟨_, execLdB_eq x s, (execLdB_eq x _).trans (congrArg _ (Eq.symm ?_))⟩
    exact apply_ite (State.setRnd · b) ..
  | storeRegs x =>
    refine ⟨_, execStoreRegs_eq x s, (execStoreRegs_eq x _).trans (congrArg _ (Eq.symm ?_))⟩
    rw [State.readRegs_congr (s.setRnd b) s rfl]
    exact apply_ite (State.setRnd · b) ..
  | loadRegs x =>
    refine ⟨_, execLoadRegs_eq x s, (execLoadRegs_eq x _).trans (congrArg _ (Eq.symm ?_))⟩
    rw [State.writeRegs_congr (s.setRnd b) s rfl]
    exact apply_ite (State.setRnd · b) ..
  | seImm x nn => exact ⟨_, rfl, congrArg _ (s.skipIf_setRnd b _)⟩
  | sneImm x nn => exact ⟨_, rfl, congrArg _ (s.skipIf_setRnd b _)⟩
  | seReg x y g => exact ⟨_, rfl, congrArg _ (s.skipIf_setRnd b _)⟩
  | sneReg x y g => exact ⟨_, rfl, congrArg _ (s.skipIf_setRnd b _)⟩
  | _ => exact ⟨_, rfl, rfl⟩

/-- The end of a Step forgets the input (rule R22). -/
theorem State.finishStep_setRnd (s : State) (w : Word) (b : Byte) : (s.setRnd b).finishStep w = s.finishStep w := by
  rw [State.finishStep_eq, State.finishStep_eq]
  rfl

/-- A Step of any word but RND is the Step whose input is 0x00. -/
theorem concludeStep_beginExecute (w : Word) (hw : opField w ≠ 0xC#4) (s : State) (r : Byte) :
    concludeStep w (exec (decodeWord w) (s.beginExecute r)) = concludeStep w (exec (decodeWord w) (s.beginExecute 0x00#8)) := by
  have hi : ∀ x nn, decodeWord w ≠ .rnd x nn := fun x nn h => hw (opField_of_decodeWord_eq_rnd w x nn h)
  obtain ⟨t, h0, hr⟩ := exec_setRnd (decodeWord w) hi (s.beginExecute 0x00#8) r
  have hbegin : (s.beginExecute 0x00#8).setRnd r = s.beginExecute r := rfl
  rw [hbegin] at hr
  rw [h0, hr]
  exact congrArg Host.Outcome.next (t.finishStep_setRnd w r)

/-- Settles O26: only RND reads the input while it runs, and the end of the Step forgets it. -/
theorem randomInputReachesOnlyRnd : Obligations.RandomInputReachesOnlyRnd := by
  intro q r s hword
  cases hf : s.fault with
  | some c => rw [performStep_faulted q s c hf, performStep_faulted r s c hf]
  | none =>
    cases hw : s.fetchWord with
    | none => rw [performStep_unfetched q s hf hw, performStep_unfetched r s hf hw]
    | some w =>
      have hop := hword w hw
      rw [performStep_fetched q s w hf hw, performStep_fetched r s w hf hw, concludeStep_beginExecute w hop s q,
        concludeStep_beginExecute w hop s r]

/-! ### A coincident Tick and Step -/

@[simp] theorem State.finishStep_readV (s : State) (w : Word) (k : RegIdx) : (s.finishStep w).readV k = s.readV k := by
  rw [State.finishStep_eq]; rfl

@[simp] theorem State.finishStep_dt (s : State) (w : Word) : (s.finishStep w).dt = s.dt := by
  rw [State.finishStep_eq]

@[simp] theorem State.finishStep_st (s : State) (w : Word) : (s.finishStep w).st = s.st := by
  rw [State.finishStep_eq]

/-- A Step of a word whose instruction answers `t` ends in `t` with its report made. -/
theorem performStep_of_exec (r : Byte) (s t : State) (w : Word) (hf : s.fault = none) (hw : s.fetchWord = some w)
    (h : exec (decodeWord w) (s.beginExecute r) = .next t) : performStep r s = .next (t.finishStep w) := by
  rw [performStep_fetched r s w hf hw, h]
  rfl

/-- The secondary dispatch of group F is on the low byte (rules R54, R57). -/
theorem decodeWord_groupF (w : Word) (h : opField w = 0xF#4) : decodeWord w = decodeGroupF w := by
  simp [decodeWord, h]

/-- Settles O35: the state u is the one the Tick leaves, and the Step in it runs the word from its timers. -/
theorem coincidentTickComesFirst : Obligations.CoincidentTickComesFirst := by
  intro s r rest hq
  have hstep : step s = performStep r (s.setSchedule rest).tickOp := by
    simp only [step, nextOperation, hq, perform]
  refine ⟨(s.setSchedule rest).tickOp, countDown_toNat s.dt, countDown_toNat s.st, rfl, hstep, ?_⟩
  intro w hf hw hop
  obtain ⟨t, ht, -⟩ := exec_answers (decodeWord w) ((s.setSchedule rest).tickOp.beginExecute r)
  refine ⟨t.finishStep w, hstep.trans (performStep_of_exec r _ t w hf hw ht), ?_⟩
  rw [decodeWord_groupF w hop] at ht
  simp only [State.finishStep_readV, State.finishStep_dt, State.finishStep_st]
  refine ⟨fun hnn => ?_, fun hnn => ?_, fun hnn => ?_⟩
  · simp only [decodeGroupF, hnn] at ht
    cases ht
    rw [State.readV_writeV_same]
    exact ⟨countDown_toNat s.dt, countDown_toNat s.dt⟩
  · simp only [decodeGroupF, hnn] at ht
    cases ht
    exact ⟨rfl, countDown_toNat s.st⟩
  · simp only [decodeGroupF, hnn] at ht
    cases ht
    exact ⟨rfl, countDown_toNat s.dt⟩

/-! ### Reset -/

@[simp] theorem State.resetAt_readV (p : Word) (k : RegIdx) : (State.resetAt p).readV k = 0x00#8 := by
  simp [State.readV, State.resetAt]

/-- Settles O45: the values are those of `State.resetAt`, and a scheduled Reset is `State.resetOp`. -/
theorem resetRestoresEveryResetValue : Obligations.ResetRestoresEveryResetValue := by
  refine ⟨fun p => ⟨fun a ha => ?_, rfl, State.resetAt_readV p, rfl, rfl, rfl, rfl, rfl, rfl, rfl⟩, fun s rest hq => ?_⟩
  · exact (State.memRead_eq_some _ a _).2 ⟨ha, rfl⟩
  · have hstep : step s = .next (s.setSchedule rest).resetOp := by
      simp only [step, nextOperation, hq, perform]
    exact ⟨_, hstep, rfl⟩

end Sys2Proof.Machine

/-! PROOFS. The FAULT latch (rule R20), and what no operation reads: the sound timer (rule R18) and the stack slots not in
use (rule R24). -/

namespace Sys2Proof.Machine

/-! ### The FAULT latch -/

/-- A latched cause outlasts every operation but Reset (rules R20, R161). -/
theorem perform_keeps_latch (q : Request) (hq : q ≠ .reset) (s : State) (c : Cause) (hf : s.fault = some c) :
    ∃ t, perform q s = .next t ∧ t.fault = some c := by
  cases q with
  | reset => exact absurd rfl hq
  | load bytes offset => exact ⟨s.report (.fault c), by simp only [perform, State.loadOp, hf], hf⟩
  | tick => exact ⟨s.tickOp, rfl, hf⟩
  | step r => exact ⟨_, performStep_faulted r s c hf, hf⟩
  | tickAndStep r => exact ⟨_, performStep_faulted r s.tickOp c hf, hf⟩

/-- Settles O12: the oldest request is not Reset, and the free Step only reports the latched cause again. -/
theorem onlyResetClearsTheFaultLatch : Obligations.OnlyResetClearsTheFaultLatch := by
  intro s t c hf hreset h
  rcases step_cases s with ⟨q, rest, hq, e⟩ | ⟨-, e⟩
  · have hne : q ≠ .reset := fun hqr => hreset rest (hqr ▸ hq)
    obtain ⟨u, hu, huf⟩ := perform_keeps_latch q hne (s.setSchedule rest) c hf
    cases h.symm.trans (e.trans hu)
    exact huf
  · cases h.symm.trans (e.trans (performStep_faulted _ s.countDraw c hf))
    exact hf

/-! ### States that differ in a part nothing reads -/

/-- The two parts of the state whose contents no operation lets out. -/
inductive UnreadPart where
  /-- ST (rule R18). -/
  | soundTimer
  /-- The stack slots at and above SP (rule R24). -/
  | deadSlots

/-- `s` with other contents of ST and of the stack slots. -/
def State.withUnread (s : State) (b : Byte) (slots : Vector Word Config.stackDepth) : State :=
  { s with st := b, stack := slots }

/-- `AlikeBut p s u`: the state `u` is `s` but for the contents of the part `p`: slots in use are always the same, and a
part other than `p` is the same whole. -/
inductive AlikeBut (p : UnreadPart) (s : State) : State → Prop
  | intro (b : Byte) (slots : Vector Word Config.stackDepth)
      (hlive : ∀ k : Fin Config.stackDepth, k.val < s.sp.val → slots[k] = s.stack[k])
      (hst : p ≠ .soundTimer → b = s.st) (hslots : p ≠ .deadSlots → slots = s.stack) :
      AlikeBut p s (s.withUnread b slots)

/-- Both answers are next states, and those are alike but for the part `p`. -/
inductive AnswersAlikeBut (p : UnreadPart) : Result → Result → Prop
  | next {t u : State} (h : AlikeBut p t u) : AnswersAlikeBut p (.next t) (.next u)

section

variable {p : UnreadPart} {s u : State}

theorem AlikeBut.refl (s : State) : AlikeBut p s s :=
  .intro s.st s.stack (fun _ _ => rfl) (fun _ => rfl) (fun _ => rfl)

theorem AlikeBut.fault_eq (h : AlikeBut p s u) : u.fault = s.fault := by cases h; rfl

theorem AlikeBut.fetchWord_eq (h : AlikeBut p s u) : u.fetchWord = s.fetchWord := by cases h; rfl

theorem AlikeBut.schedule_eq (h : AlikeBut p s u) : u.schedule = s.schedule := by cases h; rfl

theorem AlikeBut.draws_eq (h : AlikeBut p s u) : u.draws = s.draws := by cases h; rfl

/-- An operation that hands ST and the slots through without a look at them, and keeps SP, keeps states alike. -/
theorem AlikeBut.map (h : AlikeBut p s u) (f : State → State)
    (hf : ∀ b slots, f (s.withUnread b slots) = (f s).withUnread b slots) (hsp : (f s).sp = s.sp) :
    AlikeBut p (f s) (f u) := by
  cases h with
  | intro b slots hlive hst hslots =>
    have hthrough : f s = (f s).withUnread s.st s.stack := hf s.st s.stack
    have hkeepsSt : (f s).st = s.st := (congrArg State.st hthrough :)
    have hkeepsStack : (f s).stack = s.stack := (congrArg State.stack hthrough :)
    rw [hf]
    refine .intro b slots (fun k hk => ?_) (fun hp => (hst hp).trans hkeepsSt.symm)
      (fun hp => (hslots hp).trans hkeepsStack.symm)
    rw [hsp] at hk
    simpa only [hkeepsStack] using hlive k hk

theorem AlikeBut.report (h : AlikeBut p s u) (r : Report) : AlikeBut p (s.report r) (u.report r) :=
  h.map (·.report r) (fun _ _ => rfl) rfl

theorem AlikeBut.raiseFault (h : AlikeBut p s u) (c : Cause) : AlikeBut p (s.raiseFault c) (u.raiseFault c) :=
  h.map (·.raiseFault c) (fun _ _ => rfl) rfl

/-- A Tick counts ST down in both states (rule R163). -/
theorem AlikeBut.tickOp (h : AlikeBut p s u) : AlikeBut p s.tickOp u.tickOp := by
  cases h with
  | intro b slots hlive hst hslots =>
    exact .intro (countDown b) slots hlive (fun hp => congrArg countDown (hst hp)) hslots

/-- Reset leaves nothing of either part. -/
theorem AlikeBut.resetOp (h : AlikeBut p s u) : AlikeBut p s.resetOp u.resetOp := by
  cases h with
  | intro b slots => exact .refl s.resetOp

theorem State.loadOp_withUnread (s : State) (b : Byte) (slots : Vector Word Config.stackDepth) (bytes : List Byte)
    (offset : Nat) : (s.withUnread b slots).loadOp bytes offset = (s.loadOp bytes offset).withUnread b slots := by
  have hf : (s.withUnread b slots).fault = s.fault := rfl
  simp only [State.loadOp, State.memWriteRange, hf]
  split
  · rfl
  · cases rangeFits offset bytes.length <;> rfl

theorem AlikeBut.loadOp (h : AlikeBut p s u) (bytes : List Byte) (offset : Nat) :
    AlikeBut p (s.loadOp bytes offset) (u.loadOp bytes offset) := by
  refine h.map (·.loadOp bytes offset) (s.loadOp_withUnread · · bytes offset) ?_
  rcases s.loadOp_cases bytes offset with ⟨c, -, e⟩ | ⟨-, -, e⟩ | ⟨-, -, e⟩ <;> exact (congrArg State.sp e :)

theorem AlikeBut.beginExecute (h : AlikeBut p s u) (r : Byte) : AlikeBut p (s.beginExecute r) (u.beginExecute r) :=
  h.map (·.beginExecute r) (fun _ _ => rfl) rfl

theorem AlikeBut.finishStep (h : AlikeBut p s u) (w : Word) : AlikeBut p (s.finishStep w) (u.finishStep w) := by
  refine h.map (·.finishStep w) (fun b slots => ?_) ?_
  · rw [State.finishStep_eq, State.finishStep_eq]
    rfl
  · rw [State.finishStep_eq]

/-! ### The instructions keep states alike -/

/-- States alike whichever way one condition falls, for the instructions that may fault. -/
theorem AlikeBut.dite {c : Prop} [Decidable c] {a a' : c → State} {e e' : ¬c → State}
    (hpos : ∀ h : c, AlikeBut p (a h) (a' h)) (hneg : ∀ h : ¬c, AlikeBut p (e h) (e' h)) :
    AlikeBut p (if h : c then a h else e h) (if h : c then a' h else e' h) := by
  split
  · exact hpos _
  · exact hneg _

theorem AlikeBut.ite {c : Prop} [Decidable c] {a a' e e' : State} (hpos : AlikeBut p a a') (hneg : AlikeBut p e e') :
    AlikeBut p (if c then a else e) (if c then a' else e') := by
  split <;> assumption

theorem AlikeBut.skipIf (h : AlikeBut p s u) (c : Bool) : AlikeBut p (s.skipIf c) (u.skipIf c) :=
  .ite (h.map State.advancePc (fun _ _ => rfl) rfl) h

/-- RET reads the slot below SP, which is in use (rule R80). -/
theorem execRet_alike (h : AlikeBut p s u) (g : Byte) : AnswersAlikeBut p (execRet g s) (execRet g u) := by
  rw [execRet_eq, execRet_eq]
  have hfault := h.raiseFault .stackUnderflow
  cases h with
  | intro b slots hlive hst hslots =>
    refine .next (.dite (fun hsp => ?_) fun _ => hfault)
    have hlt := s.sp.isLt
    have htop : slots[s.sp.val - 1] = s.stack[s.sp.val - 1] := hlive ⟨s.sp.val - 1, by omega⟩ (Nat.sub_one_lt_of_lt hsp)
    change AlikeBut p _ { s with st := b, stack := slots, sp := ⟨s.sp.val - 1, _⟩, pc := slots[s.sp.val - 1] }
    rw [htop]
    exact .intro b slots (fun k hk => hlive k (Nat.lt_of_lt_of_le hk (Nat.sub_le ..))) hst hslots

/-- The slot CALL takes into use holds the same return address in both states (rule R83). -/
theorem execCall_alike (h : AlikeBut p s u) (nnn : Addr12) : AnswersAlikeBut p (execCall nnn s) (execCall nnn u) := by
  rw [execCall_eq, execCall_eq]
  have hfault := h.raiseFault .stackOverflow
  cases h with
  | intro b slots hlive hst hslots =>
    refine .next (.dite (fun hsp => ?_) fun _ => hfault)
    refine .intro b (slots.set s.sp.val s.pc) (fun k hk => ?_) hst (fun hp => by rw [hslots hp])
    by_cases hk' : k.val = s.sp.val
    · simp [hk']
    · have hold : k.val < s.sp.val := Nat.lt_of_le_of_ne (Nat.le_of_lt_succ hk) hk'
      simpa [Ne.symm hk'] using hlive k hold

/-- No instruction reads ST or a slot not in use (rules R18, R24); Fx18 writes the same byte to ST in both states. -/
theorem exec_alike (i : Instr) (h : AlikeBut p s u) : AnswersAlikeBut p (exec i s) (exec i u) := by
  have hret := execRet_alike h
  have hcall := execCall_alike h
  have hskip := h.skipIf
  have hfault := h.raiseFault
  cases h with
  | intro b slots hlive hst hslots =>
    cases i with
    | ret g => exact hret g
    | call nnn => exact hcall nnn
    | seImm x nn => exact .next (hskip _)
    | sneImm x nn => exact .next (hskip _)
    | seReg x y g => exact .next (hskip _)
    | sneReg x y g => exact .next (hskip _)
    | ldSTVx x => exact .next (.intro (s.readV x) slots hlive (fun _ => rfl) hslots)
    | ldB x =>
      simp only [exec, execLdB_eq]
      exact .next (.ite (.intro b slots hlive hst hslots) (hfault _))
    | storeRegs x =>
      simp only [exec, execStoreRegs_eq, State.readRegs_congr (s.withUnread b slots) s rfl]
      exact .next (.ite (.intro b slots hlive hst hslots) (hfault _))
    | loadRegs x =>
      simp only [exec, execLoadRegs_eq, State.writeRegs_congr (s.withUnread b slots) s rfl]
      exact .next (.ite (.intro b slots hlive hst hslots) (hfault _))
    | _ => exact .next (.intro b slots hlive hst hslots)

/-! ### Every operation keeps states alike -/

theorem AnswersAlikeBut.concludeStep {a a' : Result} (h : AnswersAlikeBut p a a') (w : Word) :
    AnswersAlikeBut p (concludeStep w a) (concludeStep w a') := by
  cases h with
  | next ht => exact .next (ht.finishStep w)

theorem performStep_alike (r : Byte) (h : AlikeBut p s u) : AnswersAlikeBut p (performStep r s) (performStep r u) := by
  rcases performStep_cases r s with ⟨c, hf, e⟩ | ⟨hf, hw, e⟩ | ⟨w, hf, hw, e⟩
  · rw [e, performStep_faulted r u c (h.fault_eq.trans hf)]
    exact .next (h.report _)
  · rw [e, performStep_unfetched r u (h.fault_eq.trans hf) (h.fetchWord_eq.trans hw)]
    exact .next (h.raiseFault _)
  · rw [e, performStep_fetched r u w (h.fault_eq.trans hf) (h.fetchWord_eq.trans hw)]
    exact (exec_alike (decodeWord w) (h.beginExecute r)).concludeStep w

theorem perform_alike (q : Request) (h : AlikeBut p s u) : AnswersAlikeBut p (perform q s) (perform q u) := by
  cases q with
  | reset => exact .next h.resetOp
  | load bytes offset => exact .next (h.loadOp bytes offset)
  | tick => exact .next h.tickOp
  | step r => exact performStep_alike r h
  | tickAndStep r => exact performStep_alike r h.tickOp

/-- States alike but for an unread part have the same schedule and draw the same byte, so they step to states so alike. -/
theorem step_alike (h : AlikeBut p s u) : AnswersAlikeBut p (step s) (step u) := by
  unfold step nextOperation
  rw [h.schedule_eq, h.draws_eq]
  split
  · next q rest _ => exact perform_alike q (h.map (·.setSchedule rest) (fun _ _ => rfl) rfl)
  · exact performStep_alike _ (h.map State.countDraw (fun _ _ => rfl) rfl)

/-- When one of two states so alike steps, the other one steps to a state so alike. -/
theorem AlikeBut.exists_step {t : State} (h : AlikeBut p s u) (hs : step s = .next t) :
    ∃ t', step u = .next t' ∧ AlikeBut p t t' := by
  have hstep := step_alike h
  rw [hs] at hstep
  generalize step u = answer at hstep ⊢
  cases hstep with
  | next ht => exact ⟨_, rfl, ht⟩

end

/-- Settles O51: a state with another ST is alike but for ST, and so are the states one step later. -/
theorem soundTimerInfluencesNothingElse : Obligations.SoundTimerInfluencesNothingElse := by
  intro s t b h
  have halike : AlikeBut .soundTimer s { s with st := b } :=
    .intro b s.stack (fun _ _ => rfl) (absurd rfl) (fun _ => rfl)
  obtain ⟨t', hstep, ⟨c, slots, -, -, hslots⟩⟩ := halike.exists_step h
  obtain rfl : slots = t.stack := hslots nofun
  exact ⟨c, hstep⟩

/-- Settles O52: a state with other dead slots is alike but for them, and so are the states one step later. -/
theorem deadStackSlotsInfluenceNothing : Obligations.DeadStackSlotsInfluenceNothing := by
  intro s t other hother h
  have halike : AlikeBut .deadSlots s { s with stack := other } :=
    .intro s.st other hother (fun _ => rfl) (absurd rfl)
  obtain ⟨t', hstep, ⟨c, slots, hlive, hst, -⟩⟩ := halike.exists_step h
  obtain rfl : c = t.st := hst nofun
  exact ⟨slots, hstep, hlive⟩

end Sys2Proof.Machine

/-! PROOFS. Memory and its access primitives (spec/20_memory.md). -/

namespace Sys2Proof.Machine

/-! ### A byte read after a store, at the level of the state -/

section

variable {s t : State} {a : Nat} {bs : List Byte}

/-- Inside the bytes stored, the byte stored there is read (rules R31, R34). -/
theorem memRead_of_writeBytes (ht : t.mem = Memory.writeBytes s.mem a bs) (hfit : a + bs.length ≤ Config.memSize)
    (k : Nat) (hk : k < bs.length) : t.memRead (a + k) = some bs[k] := by
  have hin : a ≤ a + k ∧ a + k < a + bs.length := by omega
  refine (State.memRead_eq_some t (a + k) bs[k]).2 ⟨by omega, ?_⟩
  rw [ht, Memory.readByte_writeBytes, dif_pos hin]
  simp only [Nat.add_sub_cancel_left]

/-- Outside the bytes stored, every address reads as before (rules R32, R34). -/
theorem memKeptOutside_of_writeBytes (ht : t.mem = Memory.writeBytes s.mem a bs) : MemKeptOutside s t a bs.length := by
  intro k hk
  have hout : ¬(a ≤ k ∧ k < a + bs.length) := by omega
  simp only [State.memRead, ht, Memory.readByte_writeBytes, dif_neg hout]

end

/-- Settles O43: a write at a valid address is `Memory.writeByte`, and past memory both accesses answer nothing. -/
theorem memoryReadsBackWhatWasWritten : Obligations.MemoryReadsBackWhatWasWritten := by
  intro s a b
  refine ⟨fun ha => ?_, fun ha => ⟨if_neg (Nat.not_lt.2 ha), if_neg (Nat.not_lt.2 ha)⟩⟩
  have hwrite := (State.memWrite_eq_some s _ a b).2 ⟨ha, rfl⟩
  refine ⟨_, hwrite, ?_, fun k hk => ?_, rfl⟩
  · exact (State.memRead_eq_some _ a b).2 ⟨ha, Memory.readByte_writeByte_same s.mem a b⟩
  · simp only [State.memRead, State.setMem_mem, Memory.readByte_writeByte_other s.mem a k b hk]

/-! ### The fetch -/

/-- The word of two bytes as a number, the high byte first (rule R33). -/
theorem wordOfBytes_toNat (hi lo : Byte) : (wordOfBytes hi lo).toNat = 256 * hi.toNat + lo.toNat := by
  simp only [wordOfBytes, BitVec.toNat_ofNat]
  omega

/-- The fetch reads the bytes at pc and pc + 1 (rule R71). -/
theorem State.fetchWord_of_memRead (s : State) (hi lo : Byte) (hhi : s.memRead s.pc.toNat = some hi)
    (hlo : s.memRead (s.pc.toNat + 1) = some lo) : s.fetchWord = some (wordOfBytes hi lo) := by
  simp only [State.fetchWord, hhi, hlo]

/-- Settles O9: the fetched word is `wordOfBytes` of the two bytes. -/
theorem fetchIsBigEndian : Obligations.FetchIsBigEndian :=
  fun s hi lo hhi hlo => ⟨_, s.fetchWord_of_memRead hi lo hhi hlo, wordOfBytes_toNat hi lo⟩

/-! ### A store of registers, and the fetch after it -/

/-- `Fx55` with its addresses inside memory stores V0..Vx and changes nothing else (rule R143). -/
theorem exec_storeRegs_of_fits (s : State) (x : RegIdx) (hfit : s.indexAddr + regCount x ≤ Config.memSize) :
    exec (.storeRegs x) s
      = .next { s with mem := Memory.writeBytes s.mem s.indexAddr (s.readRegs 0 (regCount x)) } :=
  (execStoreRegs_eq x s).trans (congrArg _ (if_pos hfit))

/-- Each of V0..Vx, Vx included, is read back at its place from I on (rule R143). -/
theorem memRead_of_writeBytes_readRegs {s t : State} {x : RegIdx}
    (ht : t.mem = Memory.writeBytes s.mem s.indexAddr (s.readRegs 0 (regCount x)))
    (hfit : s.indexAddr + regCount x ≤ Config.memSize) (k : RegIdx) (hk : k.toNat ≤ x.toNat) :
    t.memRead (s.indexAddr + k.toNat) = some (s.readV k) := by
  have hrange : s.indexAddr + (s.readRegs 0 (regCount x)).length ≤ Config.memSize := by rwa [State.length_readRegs]
  have hstored : k.toNat < (s.readRegs 0 (regCount x)).length := by
    rw [State.length_readRegs]
    exact Nat.lt_succ_of_le hk
  rw [memRead_of_writeBytes ht hrange k.toNat hstored, State.getElem_readRegs, Nat.zero_add, BitVec.ofNat_toNat,
    BitVec.setWidth_eq]

/-- Settles O10: V0 and V1 are the first two bytes stored, and they stand where the fetch reads. -/
theorem storedWordIsFetchedNext : Obligations.StoredWordIsFetchedNext := by
  intro s x hx hpc hfit
  refine ⟨_, exec_storeRegs_of_fits s x hfit, State.fetchWord_of_memRead _ _ _ ?_ ?_⟩
  · exact hpc ▸ memRead_of_writeBytes_readRegs rfl hfit 0x0#4 (Nat.zero_le _)
  · exact hpc ▸ memRead_of_writeBytes_readRegs rfl hfit 0x1#4 hx

/-! ### Load -/

/-- A fatal fault is taken with the code of its cause (rules R151, R153). -/
theorem State.raiseFault_faultTaken (s : State) (c : Cause) : FaultTaken s (s.raiseFault c) c c.code :=
  ⟨s.raiseFault_eq c, rfl, rfl⟩

/-- A Load while no fault is latched copies its bytes when they fit, and faults when they do not (rules R39, R155). -/
theorem perform_load_of_no_fault (s : State) (bytes : List Byte) (offset : Nat) (hf : s.fault = none) :
    perform (.load bytes offset) s = .next (
      if offset + bytes.length ≤ Config.memSize then
        { s with mem := Memory.writeBytes s.mem offset bytes, outcome := some .loaded }
      else s.raiseFault .loadResource) := by
  refine congrArg Host.Outcome.next ?_
  rcases s.loadOp_cases bytes offset with ⟨c, hc, -⟩ | ⟨-, hpast, e⟩ | ⟨-, hfit, e⟩
  · cases hf.symm.trans hc
  · rw [e, if_neg (Nat.not_le.2 hpast)]
  · rw [e, if_pos hfit]

/-- Settles O44: the two branches of a Load with no fault latched. -/
theorem loadCopiesBytesOrFaults : Obligations.LoadCopiesBytesOrFaults := by
  intro s bytes offset hf
  have hload := perform_load_of_no_fault s bytes offset hf
  refine ⟨fun hfit => ?_, fun hpast => ?_⟩
  · exact ⟨_, hload.trans (congrArg _ (if_pos hfit)), memRead_of_writeBytes rfl hfit, memKeptOutside_of_writeBytes rfl, rfl⟩
  · exact ⟨_, hload.trans (congrArg _ (if_neg (Nat.not_le.2 hpast))), s.raiseFault_faultTaken .loadResource⟩

end Sys2Proof.Machine

/-! PROOFS. The decoder and the encoder (spec/30_encoding.md), and the words whose Step has no effect of its own: SYS and the
decode failures. -/

namespace Sys2Proof

/-- The low nibbles of group 8 without a row, listed by rule R59. -/
theorem isSubOp8_eq_false_of_mem :
    ∀ n ∈ [0x8#4, 0x9#4, 0xA#4, 0xB#4, 0xC#4, 0xD#4, 0xF#4], isSubOp8 n = false := by decide

/-! ### The words of a group decode by its row of the tables (rules R54 to R57) -/

section
variable {w : Word}

theorem decodeWord_group0 (h : opField w = 0x0#4) : decodeWord w = decodeGroup0 w := by simp [decodeWord, h]

theorem decodeWord_group8 (h : opField w = 0x8#4) : decodeWord w = decodeGroup8 w := by simp [decodeWord, h]

theorem decodeWord_seReg (h : opField w = 0x5#4) : decodeWord w = .seReg (xField w) (yField w) (nField w) := by
  simp [decodeWord, h]

theorem decodeWord_sneReg (h : opField w = 0x9#4) : decodeWord w = .sneReg (xField w) (yField w) (nField w) := by
  simp [decodeWord, h]

theorem decodeWord_undefD (h : opField w = 0xD#4) : decodeWord w = .undefD (nnnField w) := by simp [decodeWord, h]

theorem decodeWord_undefE (h : opField w = 0xE#4) : decodeWord w = .undefE (nnnField w) := by simp [decodeWord, h]

theorem decodeWord_ret (h : opField w = 0x0#4) (hn : nField w = 0xE#4) : decodeWord w = .ret (midField w) := by
  simp [decodeWord_group0 h, decodeGroup0, hn]

theorem decodeWord_sys (h : opField w = 0x0#4) (hn : nField w ≠ 0xE#4) : decodeWord w = .sys (nnnField w) := by
  rw [decodeWord_group0 h]
  unfold decodeGroup0
  split
  · next hE => exact absurd hE hn
  · rfl

theorem decodeWord_shr (h : opField w = 0x8#4) (hn : nField w = 0x6#4) : decodeWord w = .shr (xField w) (yField w) := by
  simp [decodeWord_group8 h, decodeGroup8, hn]

theorem decodeWord_shl (h : opField w = 0x8#4) (hn : nField w = 0xE#4) : decodeWord w = .shl (xField w) (yField w) := by
  simp [decodeWord_group8 h, decodeGroup8, hn]

/-- A low nibble without a row of rule R56 falls through to the last arm. -/
theorem decodeWord_undef8 (h : opField w = 0x8#4) (hn : isSubOp8 (nField w) = false) :
    decodeWord w = .undef8 (nnnField w) := by
  rw [decodeWord_group8 h]
  unfold decodeGroup8
  split
  case h_10 => rfl
  all_goals next hrow => exact absurd (hrow ▸ hn) (by decide)

/-- A low byte without a row of rule R57 falls through to the last arm. -/
theorem decodeWord_undefF (h : opField w = 0xF#4) (hnn : isSubOpF (nnField w) = false) :
    decodeWord w = .undefF (nnnField w) := by
  rw [Machine.decodeWord_groupF w h]
  unfold decodeGroupF
  split
  case h_9 => rfl
  all_goals next hrow => exact absurd (hrow ▸ hnn) (by decide)

end

/-! ### Decoding an encoded instruction -/

/-- The fields of an instruction's layout are its operands; SYS, UNDEF_8 and UNDEF_F need well-formedness to keep off the
words of the rows before them. -/
theorem decodeWord_encode (i : Instr) (h : i.wellFormed = true) : decodeWord (encode i) = i := by
  cases i with
  | sys nnn =>
    have hn : nField (layoutNNN 0x0#4 nnn) ≠ 0xE#4 := by simpa [Instr.wellFormed] using h
    rw [encode, decodeWord_sys (opField_layoutNNN ..) hn, nnnField_layoutNNN]
  | undef8 bits =>
    have hn : isSubOp8 (nField (layoutNNN 0x8#4 bits)) = false := by simpa [Instr.wellFormed] using h
    rw [encode, decodeWord_undef8 (opField_layoutNNN ..) hn, nnnField_layoutNNN]
  | undefF bits =>
    have hnn : isSubOpF (nnField (layoutNNN 0xF#4 bits)) = false := by simpa [Instr.wellFormed] using h
    rw [encode, decodeWord_undefF (opField_layoutNNN ..) hnn, nnnField_layoutNNN]
  | ret => simp [encode, decodeWord, decodeGroup0]
  | ldReg | orReg | andReg | xorReg | addReg | subReg | shr | subnReg | shl => simp [encode, decodeWord, decodeGroup8]
  | ldVxDT | ldDTVx | ldSTVx | addI | ldF | ldB | storeRegs | loadRegs => simp [encode, decodeWord, decodeGroupF]
  | _ => simp [encode, decodeWord]

/-- The two bytes of an instruction decode as its word, whatever follows them (rules R33, R50). -/
theorem decodeBytes_encodeBytes_append (i : Instr) (rest : List Byte) :
    decodeBytes (encodeBytes i ++ rest) = .ok (decodeWord (encode i), rest) := by
  simp [encodeBytes, decodeBytes]

/-- Settles O1: the word decodes back, and the bytes decode as the word. -/
theorem decodeOfEncodeIsTheInstruction : Obligations.DecodeOfEncodeIsTheInstruction := by
  intro i rest h
  have hword := decodeWord_encode i h
  exact ⟨hword, by rw [decodeBytes_encodeBytes_append, hword]⟩

/-! ### Encoding a decoded word -/

/-- The instruction is well-formed and `w` is its word. -/
def Instr.IsOfWord (i : Instr) (w : Word) : Prop := i.wellFormed = true ∧ encode i = w

section
variable {w : Word} {op : Nibble}

theorem layoutNNN_of_opField (h : opField w = op) : layoutNNN op (nnnField w) = w := h ▸ layoutNNN_fields w

theorem layoutXNN_of_fields {nn : Byte} (h : opField w = op) (hnn : nnField w = nn) : layoutXNN op (xField w) nn = w :=
  h ▸ hnn ▸ layoutXNN_fields w

theorem layoutXYN_of_fields {n : Nibble} (h : opField w = op) (hn : nField w = n) :
    layoutXYN op (xField w) (yField w) n = w :=
  h ▸ hn ▸ layoutXYN_fields w

theorem decodeGroup0_isOfWord (h : opField w = 0x0#4) : (decodeGroup0 w).IsOfWord w := by
  unfold decodeGroup0
  split
  · next hn => exact ⟨rfl, layoutRet_fields w h hn⟩
  · next hn =>
    refine ⟨?_, layoutNNN_of_opField h⟩
    rw [Instr.wellFormed, lowNibble_nnnField]
    exact bne_iff_ne.2 hn

theorem decodeGroup8_isOfWord (h : opField w = 0x8#4) : (decodeGroup8 w).IsOfWord w := by
  unfold decodeGroup8
  split
  case h_10 =>
    refine ⟨?_, layoutNNN_of_opField h⟩
    simp_all [Instr.wellFormed, lowNibble_nnnField, isSubOp8]
  all_goals next hn => exact ⟨rfl, layoutXYN_of_fields h hn⟩

theorem decodeGroupF_isOfWord (h : opField w = 0xF#4) : (decodeGroupF w).IsOfWord w := by
  unfold decodeGroupF
  split
  case h_9 =>
    refine ⟨?_, layoutNNN_of_opField h⟩
    simp_all [Instr.wellFormed, lowByte_nnnField, isSubOpF]
  all_goals next hnn => exact ⟨rfl, layoutXNN_of_fields h hnn⟩

end

/-- Settles O2: in each primary group the layout of the row puts the word's own fields back. -/
theorem everyWordDecodesAndEncodesBack : Obligations.EveryWordDecodesAndEncodesBack := by
  intro w
  change (decodeWord w).IsOfWord w
  unfold decodeWord
  split
  case h_1 h => exact decodeGroup0_isOfWord h
  case h_9 h => exact decodeGroup8_isOfWord h
  case h_16 =>
    have h : opField w = 0xF#4 := by -- the one group the arms before leave
      generalize opField w = op at *
      decide +revert
    exact decodeGroupF_isOfWord h
  case h_4 h | h_5 h | h_7 h | h_8 h | h_13 h => exact ⟨rfl, layoutXNN_of_fields h rfl⟩
  case h_6 h | h_10 h => exact ⟨rfl, layoutXYN_of_fields h rfl⟩
  all_goals next h => exact ⟨rfl, layoutNNN_of_opField h⟩

/-- Settles O3: closed words, evaluated. -/
theorem specWordsDecodeToTheirInstructions : Obligations.SpecWordsDecodeToTheirInstructions := by
  unfold Obligations.SpecWordsDecodeToTheirInstructions
  decide

end Sys2Proof

namespace Sys2Proof.Machine

/-- Settles O4: the two words decode to terms that differ in an ignored operand at most, which no meaning reads. -/
theorem ignoredBitsHaveNoEffect : Obligations.IgnoredBitsHaveNoEffect := by
  rintro s u w hop (⟨h, hu, hw⟩ | ⟨h | h, hx, hy⟩ | ⟨h, hx, hn, hw | hw⟩)
  · rw [decodeWord_ret (hop.trans h) hu, decodeWord_ret h hw]
    rfl
  · rw [decodeWord_seReg (hop.trans h), decodeWord_seReg h, hx, hy]
    rfl
  · rw [decodeWord_sneReg (hop.trans h), decodeWord_sneReg h, hx, hy]
    rfl
  · rw [decodeWord_shr (hop.trans h) (hn.trans hw), decodeWord_shr h hw, hx]
    rfl
  · rw [decodeWord_shl (hop.trans h) (hn.trans hw), decodeWord_shl h hw, hx]
    rfl

/-! ### The Steps that only advance pc and report -/

/-- A word was fetched, so the advance of pc does not wrap (rules R15, R71). -/
theorem State.beginExecute_pc_toNat {s : State} {w : Word} (r : Byte) (hw : s.fetchWord = some w) :
    (s.beginExecute r).pc.toNat = s.pc.toNat + 2 := by
  obtain ⟨hfetch, -⟩ := (State.fetchWord_eq_some s w).1 hw
  change (s.pc + 2#16).toNat = s.pc.toNat + 2
  simp only [BitVec.toNat_add, BitVec.toNat_ofNat, Config.memSize] at hfetch ⊢
  omega

/-- A word that selects no instruction runs an UNDEF row, which reports that word and its class (rules R59, R152). -/
theorem exec_of_failsDecode {w : Word} {cls : FailClass} (h : FailsDecode w cls) (s : State) :
    exec (decodeWord w) s = .next (s.decodeFailure w cls) := by
  rcases h with ⟨rfl, hop | hop⟩ | ⟨rfl, hop, hn⟩ | ⟨rfl, hop, hnn⟩
  · rw [decodeWord_undefD hop, exec, execUndefD, encode, layoutNNN_of_opField hop]
  · rw [decodeWord_undefE hop, exec, execUndefE, encode, layoutNNN_of_opField hop]
  · rw [decodeWord_undef8 hop (isSubOp8_eq_false_of_mem _ hn), exec, execUndef8, encode, layoutNNN_of_opField hop]
  · have hnn : isSubOpF (nnField w) = false := by simpa [isSubOpF] using hnn
    rw [decodeWord_undefF hop hnn, exec, execUndefF, encode, layoutNNN_of_opField hop]

/-- Settles O13: the Step ends in the decode failure of the state with pc advanced. -/
theorem decodeFailureOnlyAdvancesPcAndReports : Obligations.DecodeFailureOnlyAdvancesPcAndReports := by
  refine ⟨fun r s w cls hf hw hfail => ?_, fun s bits => ⟨⟨_, rfl, rfl⟩, ⟨_, rfl, rfl⟩, ⟨_, rfl, rfl⟩, ⟨_, rfl, rfl⟩⟩⟩
  have hstep := performStep_of_exec r s _ w hf hw (exec_of_failsDecode hfail _)
  exact ⟨_, hstep, rfl, State.beginExecute_pc_toNat r hw, rfl, fun _ => rfl⟩

/-- Settles O14: SYS answers the state it is given, so the Step ends in the state with pc advanced and `Ok(w)` reported. -/
theorem sysIsANoOperation : Obligations.SysIsANoOperation := by
  refine ⟨fun s nnn => rfl, fun r s w hf hw hop hn => ?_⟩
  have hexec : exec (decodeWord w) (s.beginExecute r) = .next (s.beginExecute r) := by
    rw [decodeWord_sys hop hn]
    rfl
  exact ⟨_, performStep_of_exec r s _ w hf hw hexec, State.beginExecute_pc_toNat r hw, rfl⟩

end Sys2Proof.Machine

/-! PROOFS. The Step (spec/40_step_fetch_decode.md): what it runs, what it reports, and the timers it leaves alone. -/

namespace Sys2Proof

/-- The instruction is one of the four UNDEF rows (rule R59). -/
def Instr.Undefined : Instr → Prop
  | .undef8 _ | .undefD _ | .undefE _ | .undefF _ => True
  | _ => False

/-- The low nibbles of group 8 that rule R56 leaves without a row are those rule R59 lists. -/
theorem mem_of_isSubOp8_eq_false :
    ∀ n : Nibble, isSubOp8 n = false → n ∈ [0x8#4, 0x9#4, 0xA#4, 0xB#4, 0xC#4, 0xD#4, 0xF#4] := by decide

end Sys2Proof

namespace Sys2Proof.Machine

/-! ### The operation a step performs -/

/-- A scheduled request is what the step performs (log 9). -/
theorem step_of_schedule_cons {s : State} {q : Request} {rest : List Request} (hq : s.schedule = q :: rest) :
    step s = perform q (s.setSchedule rest) := by
  simp only [step, nextOperation, hq]

/-- With nothing scheduled the step is a Step with a free draw (rule R5, log 8). -/
theorem step_of_schedule_nil {s : State} (hq : s.schedule = []) :
    step s = performStep (Config.randomByte s.draws) s.countDraw := by
  simp only [step, nextOperation, hq]

/-- Settles O5: the two bytes are the fetched word, whose instruction runs in the state with pc advanced. -/
theorem stepRunsTheDecodedInstruction : Obligations.StepRunsTheDecodedInstruction := by
  refine ⟨fun s q rest => step_of_schedule_cons, fun s => step_of_schedule_nil, fun r s => rfl, ?_⟩
  intro s hi lo i hf hhi hlo hdec
  have hw : s.fetchWord = some (wordOfBytes hi lo) := s.fetchWord_of_memRead hi lo hhi hlo
  have hword : decodeWord (wordOfBytes hi lo) = i := by cases hdec; rfl
  rw [← hword]
  refine ⟨fun hq t ht => ?_, fun r rest hq t ht => ?_⟩
  · rw [step_of_schedule_nil hq, performStep_of_exec _ s.countDraw t _ hf hw ht, State.finishStep_eq]
  · rw [step_of_schedule_cons hq, perform, performStep_of_exec r (s.setSchedule rest) t _ hf hw ht, State.finishStep_eq]

/-! ### What an instruction can do to the latch, the report and the timers -/

/-- How instruction `i` can turn the state `s` into another, as far as the FAULT latch, the report and the timers go. -/
inductive ReportAndTimers (i : Instr) (s : State) : State → Prop
  /-- A decode failure, by the UNDEF rows only (rule R152). -/
  | decodeFailure (hi : i.Undefined) (w : Word) (cls : FailClass) : ReportAndTimers i s (s.decodeFailure w cls)
  /-- A fatal fault (rule R153). -/
  | fault (c : Cause) : ReportAndTimers i s (s.raiseFault c)
  /-- DT written, by `Fx15` only (rule R131). -/
  | delayTimer (x : RegIdx) (hi : i = .ldDTVx x) (b : Byte) : ReportAndTimers i s (s.setDt b)
  /-- ST written, by `Fx18` only (rule R132). -/
  | soundTimer (x : RegIdx) (hi : i = .ldSTVx x) (b : Byte) : ReportAndTimers i s (s.setSt b)
  /-- The latch, the report, DT and ST as they were. -/
  | kept (t : State) (hfault : t.fault = s.fault) (hout : t.outcome = s.outcome) (hdt : t.dt = s.dt) (hst : t.st = s.st) :
      ReportAndTimers i s t

theorem exec_reportAndTimers (i : Instr) (s t : State) (h : exec i s = .next t) : ReportAndTimers i s t := by
  cases i with
  | undef8 | undefD | undefE | undefF => cases h; exact .decodeFailure (by trivial) _ _
  | ldDTVx x => cases h; exact .delayTimer x rfl _
  | ldSTVx x => cases h; exact .soundTimer x rfl _
  | ret | call | ldB | storeRegs | loadRegs =>
    simp only [exec, execRet_eq, execCall_eq, execLdB_eq, execStoreRegs_eq, execLoadRegs_eq] at h
    cases h
    split
    · exact .kept _ rfl rfl rfl rfl
    · exact .fault _
  | seImm | sneImm | seReg | sneReg =>
    simp only [exec, execSeImm_eq, execSneImm_eq, execSeReg_eq, execSneReg_eq] at h
    cases h
    exact .kept _ rfl rfl rfl rfl
  | _ => cases h; exact .kept _ rfl rfl rfl rfl

/-! ### From the decoded instruction back to the word -/

section
variable {w : Word}

theorem encode_of_decodeWord_eq {i : Instr} (h : decodeWord w = i) : encode i = w :=
  h ▸ (everyWordDecodesAndEncodesBack w).2

theorem fields_of_decodeWord_eq_ldDTVx {x : RegIdx} (h : decodeWord w = .ldDTVx x) :
    opField w = 0xF#4 ∧ nnField w = 0x15#8 := by
  rw [← encode_of_decodeWord_eq h, encode]
  exact ⟨opField_layoutXNN .., nnField_layoutXNN ..⟩

theorem fields_of_decodeWord_eq_ldSTVx {x : RegIdx} (h : decodeWord w = .ldSTVx x) :
    opField w = 0xF#4 ∧ nnField w = 0x18#8 := by
  rw [← encode_of_decodeWord_eq h, encode]
  exact ⟨opField_layoutXNN .., nnField_layoutXNN ..⟩

/-- Only the words that rule R59 lists decode to an UNDEF row. -/
theorem exists_failsDecode_of_undefined (h : (decodeWord w).Undefined) : ∃ cls, FailsDecode w cls := by
  have hwf := (everyWordDecodesAndEncodesBack w).1
  cases hi : decodeWord w with
  | undefD bits =>
    rw [← encode_of_decodeWord_eq hi, encode]
    exact ⟨.primary, .inl ⟨rfl, .inl (opField_layoutNNN ..)⟩⟩
  | undefE bits =>
    rw [← encode_of_decodeWord_eq hi, encode]
    exact ⟨.primary, .inl ⟨rfl, .inr (opField_layoutNNN ..)⟩⟩
  | undef8 bits =>
    have hn : isSubOp8 (lowNibble bits) = false := by simpa [hi, Instr.wellFormed] using hwf
    rw [← encode_of_decodeWord_eq hi, encode]
    refine ⟨.secondary, .inr (.inl ⟨rfl, opField_layoutNNN .., ?_⟩)⟩
    rw [nField_layoutNNN]
    exact mem_of_isSubOp8_eq_false _ hn
  | undefF bits =>
    have hnn : isSubOpF (lowByte bits) = false := by simpa [hi, Instr.wellFormed] using hwf
    rw [← encode_of_decodeWord_eq hi, encode]
    refine ⟨.secondary, .inr (.inr ⟨rfl, opField_layoutNNN .., ?_⟩)⟩
    rw [nnField_layoutNNN]
    simpa [isSubOpF] using hnn
  | _ => rw [hi] at h; exact h.elim

end

/-! ### What a Step reports, and which timers it leaves alone -/

/-- A Step that fetches ends in what the word's instruction answers, with the report made. -/
theorem exists_exec_of_performStep {r : Byte} {s t : State} {w : Word} (hf : s.fault = none) (hw : s.fetchWord = some w)
    (h : performStep r s = .next t) : ∃ u, exec (decodeWord w) (s.beginExecute r) = .next u ∧ t = u.finishStep w := by
  obtain ⟨u, hu, -⟩ := exec_answers (decodeWord w) (s.beginExecute r)
  exact ⟨u, hu, Host.Outcome.next.inj (h.symm.trans (performStep_of_exec r s u w hf hw hu))⟩

@[simp] theorem State.finishStep_fault (s : State) (w : Word) : (s.finishStep w).fault = s.fault := by
  rw [State.finishStep_eq]

@[simp] theorem State.finishStep_outcome (s : State) (w : Word) :
    (s.finishStep w).outcome = some (s.outcome.getD (.ok w)) := by
  rw [State.finishStep_eq]

/-- Settles O7: the report is made where the Step ends, and only an UNDEF row reports a decode failure. -/
theorem stepReportsItsOutcome : Obligations.StepReportsItsOutcome := by
  intro r s t h
  refine ⟨fun c hf => ?_, fun hf => ⟨fun hw => ?_, fun w hw => ?_⟩⟩
  · cases h.symm.trans (performStep_faulted r s c hf)
    rfl
  · cases h.symm.trans (performStep_unfetched r s hf hw)
    rfl
  · obtain ⟨u, hu, rfl⟩ := exists_exec_of_performStep hf hw h
    refine ⟨fun cls hfail => ?_, fun hdefined => ?_⟩
    · cases hu.symm.trans (exec_of_failsDecode hfail _)
      exact ⟨hf, rfl⟩
    · rw [State.finishStep_fault, State.finishStep_outcome]
      have hbegin : (s.beginExecute r).fault = none := hf
      cases exec_reportAndTimers _ _ u hu with
      | decodeFailure hi =>
        obtain ⟨cls, hfail⟩ := exists_failsDecode_of_undefined hi
        exact absurd hfail (hdefined cls)
      | fault => exact ⟨fun c hc => (by cases hc; rfl), nofun⟩
      | delayTimer | soundTimer => exact ⟨fun c hc => absurd (hbegin.symm.trans hc) nofun, fun _ => rfl⟩
      | kept _ hfault hout =>
        rw [hfault, hout]
        exact ⟨fun c hc => absurd (hbegin.symm.trans hc) nofun, fun _ => rfl⟩

/-- Settles O32: a Step that fetches no `Fx15` keeps DT, one that fetches no `Fx18` keeps ST, and a Load keeps both. -/
theorem stepTouchesTimersOnlyThroughFx15AndFx18 : Obligations.StepTouchesTimersOnlyThroughFx15AndFx18 := by
  refine ⟨fun r s t h => ?_, fun bytes offset s t h => ?_⟩
  · rcases performStep_cases r s with ⟨c, -, e⟩ | ⟨-, -, e⟩ | ⟨w, hf, hw, -⟩
    · cases e.symm.trans h
      exact ⟨fun _ => rfl, fun _ => rfl⟩
    · cases e.symm.trans h
      exact ⟨fun _ => rfl, fun _ => rfl⟩
    · obtain ⟨u, hu, rfl⟩ := exists_exec_of_performStep hf hw h
      rw [State.finishStep_dt, State.finishStep_st]
      cases exec_reportAndTimers _ _ u hu with
      | decodeFailure | fault => exact ⟨fun _ => rfl, fun _ => rfl⟩
      | delayTimer x hi => exact ⟨fun hno => absurd (fields_of_decodeWord_eq_ldDTVx hi) (hno w hw), fun _ => rfl⟩
      | soundTimer x hi => exact ⟨fun _ => rfl, fun hno => absurd (fields_of_decodeWord_eq_ldSTVx hi) (hno w hw)⟩
      | kept _ _ _ hdt hst => exact ⟨fun _ => hdt, fun _ => hst⟩
  · cases h
    rcases s.loadOp_cases bytes offset with ⟨c, -, e⟩ | ⟨-, -, e⟩ | ⟨-, -, e⟩
    · exact e ▸ ⟨rfl, rfl⟩
    · exact e ▸ ⟨rfl, rfl⟩
    · exact e ▸ ⟨rfl, rfl⟩

end Sys2Proof.Machine

/-! PROOFS. Control flow (spec/41_control_flow.md): the jumps, CALL and RET, and the stack faults. -/

namespace Sys2Proof

section
variable {w : Word}

theorem decodeWord_jp (h : opField w = 0x1#4) : decodeWord w = .jp (nnnField w) := by simp [decodeWord, h]

theorem decodeWord_jpV0 (h : opField w = 0xB#4) : decodeWord w = .jpV0 (nnnField w) := by simp [decodeWord, h]

end

/-- `zext_16` keeps the value of a 12-bit address (rule R9). -/
theorem zext16_addr_toNat (nnn : Addr12) : (zext16 nnn).toNat = nnn.toNat :=
  BitVec.toNat_setWidth_of_le (by decide)

/-- The sum of rule R84 stays below 65536, so it is not reduced. -/
theorem zext16_addr_add_byte_toNat (nnn : Addr12) (b : Byte) : (zext16 nnn + zext16 b).toNat = nnn.toNat + b.toNat := by
  have hb : (zext16 b).toNat = b.toNat := BitVec.toNat_setWidth_of_le (by decide)
  rw [BitVec.toNat_add, zext16_addr_toNat, hb]
  omega

end Sys2Proof

namespace Sys2Proof.Machine

/-! ### The jumps -/

/-- From 4095 on, the byte at pc + 1 lies outside memory (rules R15, R71). -/
theorem State.fetchWord_eq_none_iff (s : State) : s.fetchWord = none ↔ 4095 ≤ s.pc.toNat := by
  rw [s.fetchWord_eq_none, Config.memSize]
  omega

/-- Settles O15: the zero-extended address is below 4096, and reaches 4095 only when it is 0xFFF. -/
theorem jumpSetsPcToItsAddress : Obligations.JumpSetsPcToItsAddress := by
  refine ⟨fun w => decodeWord_jp, fun s nnn => ?_⟩
  have hpc := zext16_addr_toNat nnn
  refine ⟨_, rfl, hpc, rfl, fun _ _ => rfl, fun _ => rfl, ?_⟩
  rw [State.fetchWord_eq_none_iff, State.setPc_pc, hpc]
  bv_omega

/-- Settles O16: the sum is not reduced, and the next fetch fails where pc reaches 4095. -/
theorem jumpV0AddsV0Unreduced : Obligations.JumpV0AddsV0Unreduced := by
  refine ⟨fun w => decodeWord_jpV0, fun s nnn => ?_⟩
  have hpc := zext16_addr_add_byte_toNat nnn (s.readV v0)
  refine ⟨_, rfl, hpc, rfl, fun _ _ => rfl, fun _ => rfl, ?_⟩
  rw [State.fetchWord_eq_none_iff, State.setPc_pc, hpc]
  rfl

/-! ### CALL and RET, by the number of slots in use -/

section
variable {s : State} {k : Fin Config.stackDepth}

/-- A CALL with slot `k` the first one free pushes the advanced pc there (rule R83). -/
theorem exec_call_of_free (nnn : Addr12) (hsp : s.sp = k.castSucc) :
    exec (.call nnn) s = .next { s with stack := s.stack.set k s.pc, sp := k.succ, pc := zext16 nnn } := by
  refine (execCall_eq nnn s).trans ?_
  simp only [hsp, Fin.val_castSucc, k.isLt, dite_true]
  rfl

/-- A RET with slot `k` the last one in use pops the address in it (rule R80). -/
theorem exec_ret_of_inUse (g : Byte) (hsp : s.sp = k.succ) :
    exec (.ret g) s = .next { s with sp := k.castSucc, pc := s.stack[k] } := by
  refine (execRet_eq g s).trans ?_
  simp only [hsp, Fin.val_succ, Nat.succ_pos, dite_true]
  rfl

theorem exec_call_of_full (nnn : Addr12) (hsp : s.sp.val = 16) : exec (.call nnn) s = .next (s.raiseFault .stackOverflow) :=
  (execCall_eq nnn s).trans (congrArg _ (dif_neg (Nat.not_lt.2 hsp.ge)))

theorem exec_ret_of_empty (g : Byte) (hsp : s.sp.val = 0) : exec (.ret g) s = .next (s.raiseFault .stackUnderflow) :=
  (execRet_eq g s).trans (congrArg _ (dif_neg (Nat.not_lt.2 hsp.le)))

theorem exists_sp_eq_castSucc_of_lt (h : s.sp.val < 16) : ∃ k : Fin Config.stackDepth, s.sp = k.castSucc :=
  ⟨⟨s.sp.val, h⟩, rfl⟩

theorem exists_sp_eq_succ_of_pos (h : 0 < s.sp.val) : ∃ k : Fin Config.stackDepth, s.sp = k.succ :=
  have hne : s.sp ≠ 0 := Fin.pos_iff_ne_zero.1 h
  ⟨s.sp.pred hne, (Fin.succ_pred _ hne).symm⟩

end

/-- Settles O17: the push writes the slot of index SP and no other. -/
theorem callPushesTheAdvancedPc : Obligations.CallPushesTheAdvancedPc := by
  intro s nnn h
  obtain ⟨k, hsp⟩ := exists_sp_eq_castSucc_of_lt h
  refine ⟨_, exec_call_of_free nnn hsp, ?_, zext16_addr_toNat nnn, fun j => ?_, rfl, fun _ _ => rfl, fun _ => rfl⟩
  · rw [hsp]
    rfl
  · simp only [hsp, Fin.val_castSucc, Fin.getElem_fin, Vector.getElem_set, eq_comm]

/-- Settles O18: the pop reads the slot of the lowered SP and writes none. -/
theorem retPopsTheMostRecentAddress : Obligations.RetPopsTheMostRecentAddress := by
  intro s g h
  obtain ⟨k, hsp⟩ := exists_sp_eq_succ_of_pos h
  refine ⟨_, exec_ret_of_inUse g hsp, ?_, fun j hj => ?_, rfl, fun _ _ => rfl, fun _ => rfl⟩
  · rw [hsp]
    rfl
  · cases Fin.ext hj
    rfl

/-- Settles O19: each fault is the other branch of its instruction. -/
theorem stackFaultsAreTakenPrecisely : Obligations.StackFaultsAreTakenPrecisely :=
  ⟨fun s nnn h => ⟨_, exec_call_of_full nnn h, s.raiseFault_faultTaken .stackOverflow⟩,
   fun s g h => ⟨_, exec_ret_of_empty g h, s.raiseFault_faultTaken .stackUnderflow⟩⟩

/-- Settles O20: the slot CALL takes into use is live afterwards, so the RET finds the saved pc in it. -/
theorem retUndoesCall : Obligations.RetUndoesCall := by
  intro s t u nnn g h hcall husp hlive
  obtain ⟨k, hsp⟩ := exists_sp_eq_castSucc_of_lt h
  cases hcall.symm.trans (exec_call_of_free nnn hsp)
  refine ⟨_, exec_ret_of_inUse g husp, ?_, hsp.symm⟩
  calc u.stack[k] = (s.stack.set k s.pc)[k] := hlive k (Nat.lt_succ_self _)
    _ = s.pc := Vector.getElem_set_self _

end Sys2Proof.Machine

/-! PROOFS. The conditional skips (spec/42_skips.md). -/

namespace Sys2Proof

section
variable {w : Word}

theorem decodeWord_seImm (h : opField w = 0x3#4) : decodeWord w = .seImm (xField w) (nnField w) := by
  simp [decodeWord, h]

theorem decodeWord_sneImm (h : opField w = 0x4#4) : decodeWord w = .sneImm (xField w) (nnField w) := by
  simp [decodeWord, h]

end

end Sys2Proof

namespace Sys2Proof.Machine

/-- Where `pc + 2` does not wrap, a skip taken adds 2 to pc as a number, and one not taken adds 0. -/
theorem State.skipIf_pc_toNat (s : State) (c : Bool) (hpc : s.pc.toNat + 2 < 65536) :
    (s.skipIf c).pc.toNat = s.pc.toNat + (if c then 2 else 0) := by
  rw [State.skipIf_eq]
  cases c with
  | false => rfl
  | true => exact (BitVec.toNat_add s.pc 2#16).trans (Nat.mod_eq_of_lt hpc)

/-- What a skip leaves: pc 2 further when its condition holds, and all else, registers and memory too, as it was. -/
theorem exists_next_of_exec_skipIf {i : Instr} {s : State} {c : Bool} (hexec : exec i s = .next (s.skipIf c))
    (hpc : s.pc.toNat + 2 < 65536) :
    ∃ t : State, exec i s = .next t ∧ t.pc.toNat = s.pc.toNat + (if c then 2 else 0) ∧
      t = { s with pc := t.pc } ∧ RegsKept s t [] ∧ MemKept s t := by
  refine ⟨_, hexec, s.skipIf_pc_toNat c hpc, ?_⟩
  rw [State.skipIf_eq]
  exact ⟨rfl, fun _ _ => rfl, fun _ => rfl⟩

/-- Settles O21: both are a skip, SE on the equality of Vx and nn and SNE on its negation. -/
theorem skipImmediateAddsTwoOrNothing : Obligations.SkipImmediateAddsTwoOrNothing := by
  refine ⟨fun w => ⟨decodeWord_seImm, decodeWord_sneImm⟩, fun s x nn hpc => ?_⟩
  have hse := exists_next_of_exec_skipIf (i := .seImm x nn) rfl hpc
  have hsne := exists_next_of_exec_skipIf (i := .sneImm x nn) rfl hpc
  simp only [beq_iff_eq] at hse
  simp only [bne_iff_ne, ne_eq, ite_not] at hsne
  exact ⟨hse, hsne⟩

/-- Settles O22: both are a skip, SE on the equality of Vx and Vy and SNE on its negation. -/
theorem skipRegisterAddsTwoOrNothing : Obligations.SkipRegisterAddsTwoOrNothing := by
  intro s x y ignored hpc
  have hse := exists_next_of_exec_skipIf (i := .seReg x y ignored) rfl hpc
  have hsne := exists_next_of_exec_skipIf (i := .sneReg x y ignored) rfl hpc
  simp only [beq_iff_eq] at hse
  simp only [bne_iff_ne, ne_eq, ite_not] at hsne
  exact ⟨hse, hsne⟩

end Sys2Proof.Machine

/-! PROOFS. Immediates and random (spec/43_immediate_random.md). -/

namespace Sys2Proof

section
variable {w : Word}

theorem decodeWord_ldImm (h : opField w = 0x6#4) : decodeWord w = .ldImm (xField w) (nnField w) := by
  simp [decodeWord, h]

theorem decodeWord_addImm (h : opField w = 0x7#4) : decodeWord w = .addImm (xField w) (nnField w) := by
  simp [decodeWord, h]

theorem decodeWord_ldI (h : opField w = 0xA#4) : decodeWord w = .ldI (nnnField w) := by simp [decodeWord, h]

theorem decodeWord_rnd (h : opField w = 0xC#4) : decodeWord w = .rnd (xField w) (nnField w) := by
  simp [decodeWord, h]

end

end Sys2Proof

namespace Sys2Proof.Machine

/-! ### A write to one register -/

theorem State.writeV_regsKept (s : State) (x : RegIdx) (b : Byte) : RegsKept s (s.writeV x b) [x] :=
  fun k hk => s.readV_writeV_other x k b (List.ne_of_not_mem_cons hk)

/-- What a write to Vx leaves unchanged: all but the register file, and in it all but Vx (rule R12). -/
theorem State.writeV_frame (s : State) (x : RegIdx) (b : Byte) :
    s.writeV x b = { s with v := (s.writeV x b).v } ∧ RegsKept s (s.writeV x b) [x] ∧ MemKept s (s.writeV x b) :=
  ⟨s.writeV_eq x b, s.writeV_regsKept x b, fun _ => rfl⟩

/-- The carry aside, `addCarry` is the sum mod 256 (rule R9). -/
theorem addCarry_fst_toNat (a b : Byte) : (addCarry a b).1.toNat = (a.toNat + b.toNat) % 256 :=
  BitVec.toNat_ofNat ..

/-- Settles O23: both are one write to Vx, so VF changes only where it is Vx. -/
theorem immediateLoadAndAdd : Obligations.ImmediateLoadAndAdd := by
  refine ⟨fun w => ⟨decodeWord_ldImm, decodeWord_addImm⟩, fun s x nn => ⟨?_, ?_⟩⟩
  · exact ⟨_, rfl, s.readV_writeV_same x nn, s.writeV_frame x nn⟩
  · refine ⟨_, rfl, ?_, s.writeV_frame x _⟩
    rw [State.readV_writeV_same, addCarry_fst_toNat]

/-! ### What brings I to 4096 or above -/

/-- Five times a byte is at most 1275 (rule R141). -/
theorem ldF_index_lt (b : Byte) : (BitVec.ofNat 16 (b.toNat * 5)).toNat < 4096 := by
  rw [BitVec.toNat_ofNat]
  exact (Nat.mod_le _ _).trans_lt (by omega)

/-- An instruction other than `Fx1E` keeps I or leaves it below 4096 (rule R102). -/
theorem exec_index_eq_or_lt (i : Instr) (s t : State) (h : exec i s = .next t) (hi : ∀ x, i ≠ .addI x) :
    t.i = s.i ∨ t.i.toNat < 4096 := by
  cases i with
  | addI x => exact absurd rfl (hi x)
  | ldI nnn => cases h; exact .inr (Nat.lt_succ_of_le (zext16_addr_le nnn))
  | ldF x => cases h; exact .inr (ldF_index_lt (s.readV x))
  | _ => exact .inl (exec_keeps_index _ s t h id)

/-- Settles O24: of the three instructions that write I, only `Fx1E` is not bounded by its operand. -/
theorem loadIndexZeroExtends : Obligations.LoadIndexZeroExtends := by
  refine ⟨fun w => decodeWord_ldI, fun s nnn => ?_, fun i s t h hne hge => ?_⟩
  · exact ⟨_, rfl, zext16_addr_toNat nnn, rfl, fun _ _ => rfl, fun _ => rfl⟩
  · by_contra hno
    rcases exec_index_eq_or_lt i s t h (not_exists.1 hno) with heq | hlt
    · exact hne heq
    · exact absurd hge (Nat.not_le.2 hlt)

/-! ### The random byte -/

/-- Settles O25: `exec` reads the input that the Step presents, and the end of the Step keeps the registers. -/
theorem randomByteIsMasked : Obligations.RandomByteIsMasked := by
  refine ⟨fun s x nn => ?_, fun r s w hf hw hop => ?_⟩
  · exact ⟨_, rfl, s.readV_writeV_same x _, s.writeV_frame x _⟩
  · have hexec : exec (decodeWord w) (s.beginExecute r) =
        .next ((s.beginExecute r).writeV (xField w) (r &&& nnField w)) := by
      rw [decodeWord_rnd hop]
      rfl
    refine ⟨_, performStep_of_exec r s _ w hf hw hexec, ?_, fun k hk => ?_⟩
    · rw [State.finishStep_readV, State.readV_writeV_same]
    · rw [State.finishStep_readV]
      exact (s.beginExecute r).writeV_regsKept _ _ k hk

end Sys2Proof.Machine

/-! PROOFS. Register-to-register operations (spec/44_alu_group8.md): the copy and the logic, which write no flag, and the five
instructions that clear VF before they read their operands. -/

namespace Sys2Proof

section
variable {w : Word}

theorem decodeWord_ldReg (h : opField w = 0x8#4) (hn : nField w = 0x0#4) :
    decodeWord w = .ldReg (xField w) (yField w) := by
  simp [decodeWord_group8 h, decodeGroup8, hn]

theorem decodeWord_orReg (h : opField w = 0x8#4) (hn : nField w = 0x1#4) :
    decodeWord w = .orReg (xField w) (yField w) := by
  simp [decodeWord_group8 h, decodeGroup8, hn]

theorem decodeWord_andReg (h : opField w = 0x8#4) (hn : nField w = 0x2#4) :
    decodeWord w = .andReg (xField w) (yField w) := by
  simp [decodeWord_group8 h, decodeGroup8, hn]

theorem decodeWord_xorReg (h : opField w = 0x8#4) (hn : nField w = 0x3#4) :
    decodeWord w = .xorReg (xField w) (yField w) := by
  simp [decodeWord_group8 h, decodeGroup8, hn]

end

end Sys2Proof

namespace Sys2Proof.Machine

/-! ### The copy and the logic -/

/-- Settles O27: each is one write to Vx, of the source or of the two registers combined bit by bit. -/
theorem copyAndLogicWriteOnlyVx : Obligations.CopyAndLogicWriteOnlyVx := by
  refine ⟨fun w h => ⟨decodeWord_ldReg h, decodeWord_orReg h, decodeWord_andReg h, decodeWord_xorReg h⟩,
    fun s x y => ⟨?_, ?_, ?_, ?_⟩⟩
  · exact ⟨_, rfl, s.readV_writeV_same x _, s.writeV_frame x _⟩
  · refine ⟨_, rfl, fun b => ?_, s.writeV_frame x _⟩
    rw [State.readV_writeV_same, BitVec.getLsbD_or]
  · refine ⟨_, rfl, fun b => ?_, s.writeV_frame x _⟩
    rw [State.readV_writeV_same, BitVec.getLsbD_and]
  · refine ⟨_, rfl, fun b => ?_, s.writeV_frame x _⟩
    rw [State.readV_writeV_same, BitVec.getLsbD_xor]

/-! ### The results and flags as numbers (rules R9, R115 to R119) -/

theorem flagByte_toNat (c : Bool) : (flagByte c).toNat = c.toNat := by cases c <;> rfl

theorem flagByte_decide (p : Prop) [Decidable p] : flagByte (decide p) = if p then 0x01#8 else 0x00#8 := by
  simp only [flagByte, decide_eq_true_eq]

/-- The borrow aside, `subBorrow` is the difference mod 256 (rule R9). -/
theorem subBorrow_fst_toNat (a b : Byte) : (subBorrow a b).1.toNat = (256 + a.toNat - b.toNat) % 256 := by
  have ha := a.isLt
  have hb := b.isLt
  simp only [subBorrow, BitVec.toNat_ofInt]
  omega

theorem shiftRightOut_fst_toNat (a : Byte) : (shiftRightOut a).1.toNat = a.toNat / 2 :=
  BitVec.toNat_ushiftRight ..

theorem shiftRightOut_snd_toNat (a : Byte) : (shiftRightOut a).2.toNat = a.toNat % 2 := by
  rw [shiftRightOut, BitVec.getLsbD, Nat.toNat_testBit, Nat.pow_zero, Nat.div_one]

theorem shiftLeftOut_fst_toNat (a : Byte) : (shiftLeftOut a).1.toNat = 2 * a.toNat % 256 := by
  simp [shiftLeftOut, Nat.shiftLeft_eq, Nat.mul_comm]

/-- Bit 7 is the quotient by 128, which is below 2. -/
theorem shiftLeftOut_snd_toNat (a : Byte) : (shiftLeftOut a).2.toNat = a.toNat / 128 := by
  rw [shiftLeftOut, BitVec.getLsbD, Nat.toNat_testBit]
  exact Nat.mod_eq_of_lt (Nat.div_lt_of_lt_mul a.isLt)

/-! ### What the two orders of writing leave (rule R110) -/

theorem State.clearFlag_readV_toNat (s : State) (k : RegIdx) : (s.clearFlag.readV k).toNat = operandAfterClear s k := by
  rw [State.readV_clearFlag, apply_ite BitVec.toNat]
  rfl

theorem operandAfterClear_vF (s : State) : operandAfterClear s vF = 0 := if_pos rfl

/-- A register outside the frame's exceptions meets neither condition of the `readV` laws of the flag discipline. -/
theorem ne_dest_and_ne_vF {x k : RegIdx} (hk : k ∉ [x, 0xF#4]) : k ≠ x ∧ k ≠ vF := by
  simpa [vF] using hk

theorem State.resultThenFlag_frame (s : State) (x y : RegIdx) (f : Byte → Byte → Byte × Bool) :
    s.resultThenFlag x y f = { s with v := (s.resultThenFlag x y f).v } ∧
      RegsKept s (s.resultThenFlag x y f) [x, 0xF#4] ∧ MemKept s (s.resultThenFlag x y f) := by
  refine ⟨s.resultThenFlag_eq x y f, fun k hk => ?_, fun _ => rfl⟩
  obtain ⟨hx, hF⟩ := ne_dest_and_ne_vF hk
  rw [State.readV_resultThenFlag, if_neg hF, if_neg hx]

theorem State.flagThenResult_frame (s : State) (x : RegIdx) (f : Byte → Byte × Bool) :
    s.flagThenResult x f = { s with v := (s.flagThenResult x f).v } ∧
      RegsKept s (s.flagThenResult x f) [x, 0xF#4] ∧ MemKept s (s.flagThenResult x f) := by
  refine ⟨s.flagThenResult_eq x f, fun k hk => ?_, fun _ => rfl⟩
  obtain ⟨hx, hF⟩ := ne_dest_and_ne_vF hk
  rw [State.readV_flagThenResult, if_neg hx, if_neg hF]

section
variable {i : Instr} {s : State} {x y : RegIdx}

/-- The result first: Vx holds it unless Vx is VF, and VF always ends with the flag. `r` and `p` are the result and the flag's
condition as functions of the operands' numbers. -/
theorem exists_next_of_exec_resultThenFlag {f : Byte → Byte → Byte × Bool} {r : Nat → Nat → Nat} {p : Nat → Nat → Prop}
    [DecidableRel p] (hexec : exec i s = .next (s.resultThenFlag x y f))
    (hr : ∀ a b : Byte, (f a b).1.toNat = r a.toNat b.toNat)
    (hp : ∀ a b : Byte, (f a b).2 = decide (p a.toNat b.toNat)) :
    ∃ t : State, exec i s = .next t ∧
      (x ≠ 0xF#4 → (t.readV x).toNat = r (operandAfterClear s x) (operandAfterClear s y)) ∧
      t.readV 0xF#4 = (if p (operandAfterClear s x) (operandAfterClear s y) then 0x01#8 else 0x00#8) ∧
      t = { s with v := t.v } ∧ RegsKept s t [x, 0xF#4] ∧ MemKept s t := by
  have hresult (hx : x ≠ vF) :
      ((s.resultThenFlag x y f).readV x).toNat = r (operandAfterClear s x) (operandAfterClear s y) := by
    rw [State.readV_resultThenFlag, if_neg hx, if_pos rfl, hr, State.clearFlag_readV_toNat, State.clearFlag_readV_toNat]
  have hflag : (s.resultThenFlag x y f).readV vF =
      if p (operandAfterClear s x) (operandAfterClear s y) then 0x01#8 else 0x00#8 := by
    rw [State.readV_resultThenFlag, if_pos rfl, hp, flagByte_decide, State.clearFlag_readV_toNat,
      State.clearFlag_readV_toNat]
  exact ⟨_, hexec, hresult, hflag, s.resultThenFlag_frame x y f⟩

/-- The flag first: Vx ends with the result. Where Vx is VF the operand is 0, so the result there is 0, and so is the flag it
overwrites. `r` and `b` are the result and the bit shifted out as functions of the operand's number. -/
theorem exists_next_of_exec_flagThenResult {f : Byte → Byte × Bool} {r b : Nat → Nat}
    (hexec : exec i s = .next (s.flagThenResult x f))
    (hr : ∀ a : Byte, (f a).1.toNat = r a.toNat) (hb : ∀ a : Byte, (f a).2.toNat = b a.toNat)
    (hr0 : r 0 = 0) (hb0 : b 0 = 0) :
    ∃ t : State, exec i s = .next t ∧
      (t.readV x).toNat = (if x = 0xF#4 then 0 else r (operandAfterClear s x)) ∧
      (t.readV 0xF#4).toNat = b (operandAfterClear s x) ∧
      t = { s with v := t.v } ∧ RegsKept s t [x, 0xF#4] ∧ MemKept s t := by
  have hresult : ((s.flagThenResult x f).readV x).toNat = r (operandAfterClear s x) := by
    rw [State.readV_flagThenResult, if_pos rfl, hr, State.clearFlag_readV_toNat]
  have hflag : ((s.flagThenResult x f).readV vF).toNat = b (operandAfterClear s x) := by
    by_cases hx : x = vF
    · subst hx
      rw [operandAfterClear_vF] at hresult ⊢
      exact hresult.trans (hr0.trans hb0.symm)
    · rw [State.readV_flagThenResult, if_neg (Ne.symm hx), if_pos rfl, flagByte_toNat, hb, State.clearFlag_readV_toNat]
  refine ⟨_, hexec, hresult.trans ?_, hflag, s.flagThenResult_frame x f⟩
  split
  · next hx => rw [hx, ← vF, operandAfterClear_vF, hr0]
  · rfl

end

/-! ### The five instructions -/

/-- Settles O28: the result first, with the sum mod 256 and its carry. -/
theorem addRegisterSetsCarry : Obligations.AddRegisterSetsCarry := fun _ _ _ =>
  exists_next_of_exec_resultThenFlag (r := fun a b => (a + b) % 256) (p := fun a b => 255 < a + b) rfl
    addCarry_fst_toNat (fun _ _ => rfl)

/-- Settles O29: the result first, with the difference mod 256 and its borrow; SUBN takes the operands in the other order. -/
theorem subtractionsSetBorrow : Obligations.SubtractionsSetBorrow := fun _ _ _ =>
  ⟨exists_next_of_exec_resultThenFlag (r := fun a b => (256 + a - b) % 256) (p := fun a b => a < b) rfl
    subBorrow_fst_toNat (fun _ _ => rfl),
   exists_next_of_exec_resultThenFlag (r := fun a b => (256 + b - a) % 256) (p := fun a b => b < a) rfl
    (fun a b => subBorrow_fst_toNat b a) (fun _ _ => rfl)⟩

/-- Settles O30: the flag first, with the byte halved or doubled and the bit that falls out. -/
theorem shiftsSetTheBitShiftedOut : Obligations.ShiftsSetTheBitShiftedOut := fun _ _ _ =>
  ⟨exists_next_of_exec_flagThenResult (r := fun a => a / 2) (b := fun a => a % 2) rfl
    shiftRightOut_fst_toNat shiftRightOut_snd_toNat rfl rfl,
   exists_next_of_exec_flagThenResult (r := fun a => 2 * a % 256) (b := fun a => a / 128) rfl
    shiftLeftOut_fst_toNat shiftLeftOut_snd_toNat rfl rfl⟩

end Sys2Proof.Machine

/-! PROOFS. Timer access (spec/45_timer_access.md): one write to Vx or to one timer. -/

namespace Sys2Proof.Machine

/-! ### A write to one timer -/

/-- What a write to DT leaves unchanged: all but DT, registers and memory too (rule R18). -/
theorem State.setDt_frame (s : State) (b : Byte) :
    s.setDt b = { s with dt := (s.setDt b).dt } ∧ RegsKept s (s.setDt b) [] ∧ MemKept s (s.setDt b) :=
  ⟨rfl, fun k _ => s.setDt_readV b k, fun _ => rfl⟩

/-- What a write to ST leaves unchanged: all but ST, registers and memory too (rule R18). -/
theorem State.setSt_frame (s : State) (b : Byte) :
    s.setSt b = { s with st := (s.setSt b).st } ∧ RegsKept s (s.setSt b) [] ∧ MemKept s (s.setSt b) :=
  ⟨rfl, fun k _ => s.setSt_readV b k, fun _ => rfl⟩

/-- Settles O31: each is one write, of DT to Vx or of Vx to the timer named. -/
theorem timerMovesCopyOneByte : Obligations.TimerMovesCopyOneByte := by
  refine fun s x => ⟨?readDelay, ?writeDelay, ?writeSound⟩
  case readDelay => exact ⟨_, rfl, s.readV_writeV_same x s.dt, s.writeV_frame x s.dt⟩
  case writeDelay => exact ⟨_, rfl, s.setDt_dt (s.readV x), s.setDt_frame (s.readV x)⟩
  case writeSound => exact ⟨_, rfl, s.setSt_st (s.readV x), s.setSt_frame (s.readV x)⟩

end Sys2Proof.Machine

/-! PROOFS. Index and memory (spec/46_index_memory.md): the writes to I, the stores and loads at I, and their address faults. -/

namespace Sys2Proof.Machine

/-! ### The writes to I -/

/-- The carry aside, `addIndex` is the sum mod 65536 (rule R140). -/
theorem addIndex_fst_toNat (i : Word) (a : Byte) : (addIndex i a).1.toNat = (i.toNat + a.toNat) % 65536 :=
  BitVec.toNat_ofNat ..

/-- The flag `addIndex` gives is the carry out of bit 15 (rule R140). -/
theorem flagByte_addIndex_snd (i : Word) (a : Byte) :
    flagByte (addIndex i a).2 = if 65535 < i.toNat + a.toNat then 0x01#8 else 0x00#8 :=
  flagByte_decide _

/-- What `Fx1E` leaves unchanged: all but I and VF (rule R140). -/
theorem State.indexThenFlag_frame (s : State) (x : RegIdx) :
    s.indexThenFlag x = { s with v := (s.indexThenFlag x).v, i := (s.indexThenFlag x).i } ∧
      RegsKept s (s.indexThenFlag x) [0xF#4] ∧ MemKept s (s.indexThenFlag x) := by
  refine ⟨s.indexThenFlag_eq x, fun k hk => ?_, fun _ => rfl⟩
  have hF : k ≠ vF := List.ne_of_not_mem_cons hk
  rw [State.readV_indexThenFlag, if_neg hF]

/-- Settles O36: the operand read after the clear is 0 for VF and Vx for the others, and VF receives the carry last. -/
theorem addIndexSetsSixteenBitCarry : Obligations.AddIndexSetsSixteenBitCarry := by
  intro s x
  refine ⟨s.indexThenFlag x, rfl, ?_, ?_, s.indexThenFlag_frame x⟩
  · rw [← State.clearFlag_readV_toNat]
    exact addIndex_fst_toNat s.i _
  · rw [← vF, State.readV_indexThenFlag, if_pos rfl, flagByte_addIndex_snd, State.clearFlag_readV_toNat]

/-- What a write to I leaves unchanged: all but I, registers and memory too (rule R13). -/
theorem State.setI_frame (s : State) (w : Word) :
    s.setI w = { s with i := (s.setI w).i } ∧ RegsKept s (s.setI w) [] ∧ MemKept s (s.setI w) :=
  ⟨rfl, fun k _ => s.setI_readV w k, fun _ => rfl⟩

/-- Five times a byte fits in I, so the product is not reduced (rule R141). -/
theorem ldF_index_toNat (b : Byte) : (BitVec.ofNat 16 (b.toNat * 5)).toNat = 5 * b.toNat := by
  rw [BitVec.toNat_ofNat]
  omega

/-- Settles O37: one write to I. -/
theorem spriteOffsetIsFiveTimesVx : Obligations.SpriteOffsetIsFiveTimesVx :=
  fun s x => ⟨_, rfl, ldF_index_toNat (s.readV x), s.setI_frame _⟩

/-! ### The stores at I -/

/-- What a store of bytes from address `a` on leaves unchanged: all but memory, and in it all but those bytes (rule R44). -/
theorem State.store_frame (s t : State) (a : Nat) (bs : List Byte)
    (ht : t = { s with mem := Memory.writeBytes s.mem a bs }) :
    t = { s with mem := t.mem } ∧ RegsKept s t [] ∧ MemKeptOutside s t a bs.length := by
  subst ht
  exact ⟨rfl, fun _ _ => rfl, memKeptOutside_of_writeBytes rfl⟩

@[simp] theorem length_bcdDigits (b : Byte) : (bcdDigits b).length = 3 := rfl

/-- `Fx33` with its addresses inside memory stores the three digits and changes nothing else (rule R142). -/
theorem exec_ldB_of_fits (s : State) (x : RegIdx) (hfit : s.indexAddr + 3 ≤ Config.memSize) :
    exec (.ldB x) s = .next { s with mem := Memory.writeBytes s.mem s.indexAddr (bcdDigits (s.readV x)) } :=
  (execLdB_eq x s).trans (congrArg _ (if_pos hfit))

/-- Settles O38: the three bytes stored are `bcdDigits` of Vx. -/
theorem bcdDigitsAreStoredAtIndex : Obligations.BcdDigitsAreStoredAtIndex := by
  intro s x hfit
  refine ⟨_, exec_ldB_of_fits s x hfit, ?hundreds, ?tens, ?ones, s.store_frame _ _ _ rfl⟩
  case hundreds => exact memRead_of_writeBytes (bs := bcdDigits _) rfl hfit 0 (by simp)
  case tens => exact memRead_of_writeBytes (bs := bcdDigits _) rfl hfit 1 (by simp)
  case ones => exact memRead_of_writeBytes (bs := bcdDigits _) rfl hfit 2 (by simp)

/-- Settles O39: the bytes stored are the contents of V0..Vx, x + 1 of them. -/
theorem registersAreStoredAtIndex : Obligations.RegistersAreStoredAtIndex := by
  intro s x hfit
  have hframe := s.store_frame _ s.indexAddr (s.readRegs 0 (regCount x)) rfl
  rw [State.length_readRegs] at hframe
  exact ⟨_, exec_storeRegs_of_fits s x hfit, memRead_of_writeBytes_readRegs rfl hfit, hframe⟩

/-! ### The load from I -/

/-- `Fx65` with its addresses inside memory writes V0..Vx and changes nothing else (rule R144). -/
theorem exec_loadRegs_of_fits (s : State) (x : RegIdx) (hfit : s.indexAddr + regCount x ≤ Config.memSize) :
    exec (.loadRegs x) s
      = .next { s with v := (s.writeRegs 0 (Memory.readBytes s.mem s.indexAddr (regCount x))).v } :=
  (execLoadRegs_eq x s).trans (congrArg _ (if_pos hfit))

/-- Each of V0..Vx, Vx included, takes the byte at its place from `a` on; the registers above Vx stay (rule R144). -/
theorem State.readV_writeRegs_readBytes (s : State) (m : Memory) (a : Nat) (x k : RegIdx) :
    (s.writeRegs 0 (Memory.readBytes m a (regCount x))).readV k
      = if k.toNat ≤ x.toNat then Memory.readByte m (a + k.toNat) else s.readV k := by
  have hrow : 0 + (Memory.readBytes m a (regCount x)).length ≤ 16 := by
    rw [Memory.length_readBytes, Nat.zero_add]
    exact x.isLt
  rw [State.readV_writeRegs s 0 _ k hrow]
  simp only [Memory.length_readBytes, Memory.getElem_readBytes, Nat.zero_le, true_and, Nat.zero_add, Nat.sub_zero, regCount,
    Nat.lt_succ_iff, dite_eq_ite]

/-- Settles O40: a register up to Vx takes its byte, one above Vx is outside the row written. -/
theorem registersAreLoadedFromIndex : Obligations.RegistersAreLoadedFromIndex := by
  intro s x hfit
  have hreg := s.readV_writeRegs_readBytes s.mem s.indexAddr x
  refine ⟨_, exec_loadRegs_of_fits s x hfit, fun k hk => ?_, fun k hk => ?_, rfl, fun _ => rfl⟩
  · have hin : s.indexAddr + k.toNat < Config.memSize := (Nat.add_le_add_left hk _).trans_lt hfit
    exact (s.memRead_eq_some _ _).2 ⟨hin, ((hreg k).trans (if_pos hk)).symm⟩
  · exact (hreg k).trans (if_neg (Nat.not_le.2 hk))

/-- Settles O42: the load finds I where the store left it, and at each place the byte stored there. -/
theorem dumpThenLoadRestoresRegisters : Obligations.DumpThenLoadRestoresRegisters := by
  intro s t u x hfit hstore hi hbytes
  obtain ⟨t', hstore', hstored, -⟩ := registersAreStoredAtIndex s x (Nat.lt_succ_of_le hfit)
  cases hstore.symm.trans hstore'
  have haddr : u.indexAddr = s.indexAddr := congrArg BitVec.toNat (hi.trans (exec_keeps_index _ s t hstore id))
  obtain ⟨z, hload, hloaded, -⟩ := registersAreLoadedFromIndex u x (haddr ▸ Nat.lt_succ_of_le hfit)
  refine ⟨z, hload, fun k hk => Option.some.inj ?_⟩
  calc some (z.readV k) = u.memRead (s.indexAddr + k.toNat) := by rw [← hloaded k hk, haddr]
    _ = t.memRead (s.indexAddr + k.toNat) := hbytes _ (Nat.le_add_right _ _) (Nat.add_le_add_left hk _)
    _ = some (s.readV k) := hstored k hk

/-! ### A range past the end of memory -/

theorem exec_ldB_of_past (s : State) (x : RegIdx) (hpast : Config.memSize < s.indexAddr + 3) :
    exec (.ldB x) s = .next (s.raiseFault .dataAddrWrite) :=
  (execLdB_eq x s).trans (congrArg _ (if_neg (Nat.not_le.2 hpast)))

theorem exec_storeRegs_of_past (s : State) (x : RegIdx) (hpast : Config.memSize < s.indexAddr + regCount x) :
    exec (.storeRegs x) s = .next (s.raiseFault .dataAddrWrite) :=
  (execStoreRegs_eq x s).trans (congrArg _ (if_neg (Nat.not_le.2 hpast)))

theorem exec_loadRegs_of_past (s : State) (x : RegIdx) (hpast : Config.memSize < s.indexAddr + regCount x) :
    exec (.loadRegs x) s = .next (s.raiseFault .dataAddrRead) :=
  (execLoadRegs_eq x s).trans (congrArg _ (if_neg (Nat.not_le.2 hpast)))

/-- Settles O41: a range that passes the last byte leaves only the fault, with the code of its cause. -/
theorem dataAddressFaultsAreTakenPrecisely : Obligations.DataAddressFaultsAreTakenPrecisely := by
  refine fun s x => ⟨fun hpast => ?_, fun hpast => ⟨?_, ?_⟩⟩
  · exact ⟨_, exec_ldB_of_past s x (Nat.lt_succ_of_le hpast), s.raiseFault_faultTaken .dataAddrWrite⟩
  · exact ⟨_, exec_storeRegs_of_past s x (Nat.lt_succ_of_le hpast), s.raiseFault_faultTaken .dataAddrWrite⟩
  · exact ⟨_, exec_loadRegs_of_past s x (Nat.lt_succ_of_le hpast), s.raiseFault_faultTaken .dataAddrRead⟩

end Sys2Proof.Machine

/-! PROOFS. Faults and timers (spec/60_exceptions.md): every operation answers a next state, the fetch fault and the latched
fault, and what Tick does to the timers. -/

namespace Sys2Proof.Machine

/-! ### Tick, as what it leaves in each field (rule R163) -/

@[simp] theorem State.tickOp_dt_toNat (s : State) : s.tickOp.dt.toNat = s.dt.toNat - 1 := countDown_toNat s.dt

@[simp] theorem State.tickOp_st_toNat (s : State) : s.tickOp.st.toNat = s.st.toNat - 1 := countDown_toNat s.st

@[simp] theorem State.tickOp_schedule (s : State) : s.tickOp.schedule = s.schedule := rfl

@[simp] theorem State.tickOp_fault (s : State) : s.tickOp.fault = s.fault := rfl

@[simp] theorem State.tickOp_programStart (s : State) : s.tickOp.programStart = s.programStart := rfl

/-- What a Tick leaves unchanged: all but the timers and the report, registers and memory too (rule R163). -/
theorem State.tickOp_frame (s : State) :
    s.tickOp = { s with dt := s.tickOp.dt, st := s.tickOp.st, outcome := none } ∧ RegsKept s s.tickOp [] ∧ MemKept s s.tickOp :=
  ⟨s.tickOp_eq, fun _ _ => rfl, fun _ => rfl⟩

/-- Settles O33: `State.tickOp` counts each timer down on its own and keeps the rest. -/
theorem tickCountsDownToZero : Obligations.TickCountsDownToZero :=
  fun s => ⟨s.tickOp, rfl, s.tickOp_dt_toNat, s.tickOp_st_toNat, s.tickOp_frame⟩

/-! ### PROGRAM_START through every operation -/

@[simp] theorem State.finishStep_programStart (s : State) (w : Word) : (s.finishStep w).programStart = s.programStart := by
  rw [State.finishStep_eq]

@[simp] theorem State.loadOp_programStart (s : State) (bytes : List Byte) (offset : Nat) :
    (s.loadOp bytes offset).programStart = s.programStart := by
  rcases s.loadOp_cases bytes offset with ⟨c, -, e⟩ | ⟨-, -, e⟩ | ⟨-, -, e⟩
  · rw [e, State.report_programStart]
  · rw [e, State.raiseFault_eq]
  · rw [e]

/-- A Step answers a next state whether or not it can run the word at pc (rules R152 to R156), with PROGRAM_START kept. -/
theorem performStep_answers_keeping_programStart (r : Byte) (s : State) :
    ∃ t, performStep r s = .next t ∧ t.programStart = s.programStart := by
  rcases performStep_cases r s with ⟨c, -, e⟩ | ⟨-, -, e⟩ | ⟨w, hf, hw, -⟩
  · exact ⟨_, e, rfl⟩
  · exact ⟨_, e, rfl⟩
  · obtain ⟨t, ht, -⟩ := exec_answers (decodeWord w) (s.beginExecute r)
    obtain ⟨-, -, -, hkept⟩ := exec_keeps_modelFields _ _ t ht
    exact ⟨_, performStep_of_exec r s t w hf hw ht, (t.finishStep_programStart w).trans hkept⟩

/-- Every operation answers a next state with PROGRAM_START kept, Reset among them (rule R8). -/
theorem perform_answers_keeping_programStart (q : Request) (s : State) :
    ∃ t, perform q s = .next t ∧ t.programStart = s.programStart := by
  cases q with
  | reset => exact ⟨s.resetOp, rfl, rfl⟩
  | load bytes offset => exact ⟨_, rfl, s.loadOp_programStart bytes offset⟩
  | tick => exact ⟨_, rfl, s.tickOp_programStart⟩
  | step r => exact performStep_answers_keeping_programStart r s
  | tickAndStep r => exact performStep_answers_keeping_programStart r s.tickOp

/-- Settles O6: the oldest request, or the free Step, answers. -/
theorem stepAlwaysAnswersANextState : Obligations.StepAlwaysAnswersANextState := by
  intro s
  rcases step_cases s with ⟨q, rest, -, e⟩ | ⟨-, e⟩
  · exact e ▸ perform_answers_keeping_programStart q (s.setSchedule rest)
  · exact e ▸ performStep_answers_keeping_programStart _ s.countDraw

/-! ### The fetch fault and the latched fault -/

/-- Settles O8: from 4095 on nothing can be fetched, and the Step takes the fault before pc advances. -/
theorem fetchOutsideMemoryFaults : Obligations.FetchOutsideMemoryFaults := by
  intro r s hf hpc
  exact ⟨_, performStep_unfetched r s hf (s.fetchWord_eq_none_iff.2 hpc), s.raiseFault_faultTaken .fetchAddr⟩

/-- A Load of a faulted machine re-reports (rule R156). -/
theorem State.loadOp_faulted (s : State) (bytes : List Byte) (offset : Nat) {c : Cause} (hf : s.fault = some c) :
    s.loadOp bytes offset = s.report (.fault c) := by
  simp only [State.loadOp, hf]

/-- Settles O11: Step and Load re-report the cause, and Tick does not look at the latch. -/
theorem latchedFaultStopsStepAndLoadNotTick : Obligations.LatchedFaultStopsStepAndLoadNotTick := by
  intro s c r bytes offset hf
  refine ⟨performStep_faulted r s c hf, congrArg Host.Outcome.next (s.loadOp_faulted bytes offset hf), ?_⟩
  exact ⟨s.tickOp, rfl, s.tickOp_fault.trans hf, s.tickOp_dt_toNat, s.tickOp_st_toNat⟩

/-! ### A row of ticks -/

/-- Settles O34, by induction on the number of ticks: the first one takes 1 off each timer, the rest of them k more. -/
theorem timersFallByTheNumberOfTicks : Obligations.TimersFallByTheNumberOfTicks := by
  intro k
  induction k with
  | zero => exact fun s rest hq => ⟨s, rfl, rfl, rfl, hq⟩
  | succ k ih =>
    intro s rest hq
    have htick : step s = .next (s.setSchedule (List.replicate k .tick ++ rest)).tickOp := step_of_schedule_cons hq
    obtain ⟨t, hrun, hdt, hst, hrest⟩ := ih (s.setSchedule (List.replicate k .tick ++ rest)).tickOp rest rfl
    refine ⟨t, (core_run_succ Sys2Proof.core k s _ htick).trans hrun, ?_, ?_, hrest⟩
    · rw [hdt, State.tickOp_dt_toNat, State.setSchedule_dt, Nat.sub_sub, Nat.add_comm]
    · rw [hst, State.tickOp_st_toNat, State.setSchedule_st, Nat.sub_sub, Nat.add_comm]

end Sys2Proof.Machine
